-- ==== Sys2Proof/Word.lean ====
section
/-! DEFINITION. The widths of spec/00_scope.md rules R6 and R8 (decision D1: W_COUNT = W_TIME = W_HIST = 32). -/

namespace Sys2Proof

/-- A stream byte, an event code, the `op` and `sel` fields (R8, R61, R64). -/
abbrev Byte := BitVec 8

/-- A frame field or the checksum accumulator (R8). -/
abbrev Half := BitVec 16

/-- A word of the command port: `CW`, `ARG`, `EP` or a response value (R60, R64, R66). -/
abbrev Word := BitVec 32

/-- `count`, `base_count`: W_COUNT = 32 bits (R6, R8). -/
abbrev Count := BitVec 32

/-- `let`, `dbw`, `base_time`, `tb_edge`, `tb_ms`, `ht0`: W_TIME = 32 bits (R6, R8). -/
abbrev Time := BitVec 32

/-- A histogram bucket: W_HIST = 32 bits (R6, R8). -/
abbrev Bucket := BitVec 32

end Sys2Proof
end

