-- ==== Sys2Proof/Config.lean ====
section
/-! DEFINITION. The implementation parameters of spec/00_scope.md rule R6: the fixed and decided ones by value, the OPEN ones as the record
`Parameters`, and the free values, which are opaque constants with no body. -/

namespace Sys2Proof.Config

/-- `N_PC` (R6, D3): counter 0 is the rain gauge, counter 1 the cup anemometer. -/
abbrev nPC : Nat := 2

/-- `N_WIN` (R6, D3). -/
abbrev nWin : Nat := 2

/-- `N_HIST` (R6, D3). -/
abbrev nHist : Nat := 1

/-- `N_LEVELS` (R6). -/
abbrev nLevels : Nat := 16

/-- `N_FIELDS` (R6): 16-bit fields per frame. -/
abbrev nFields : Nat := 15

/-- The two forms of a measurement window (R100). -/
inductive WinKind
  /-- Accumulated quantity (rain). -/
  | acc
  /-- Rate (wind speed). -/
  | rate
deriving DecidableEq, Repr

/-- An exact non-negative rational, numerator over denominator (R7: a decimal is the rational it spells). -/
structure Ratio where
  num : Nat
  den : Nat
deriving DecidableEq, Repr

/-- `WIN_KIND[w]` (R6). -/
def winKinds : Vector WinKind nWin := #v[.acc, .rate]

/-- `WIN_CTR[w]` (R6). -/
def winCtrs : Vector (Fin nPC) nWin := #v[0, 1]

/-- `WIN_K[w]` (R6): 0.1397 mm per edge, and 666.667 m/s per edge-per-millisecond, exactly. -/
def winKs : Vector Ratio nWin := #v[⟨1397, 10000⟩, ⟨666667, 1000⟩]

/-- `TOL` (R6), inclusive (R123). -/
def tol : Nat := 10

/-- `IDX_FAIL` (R6). -/
def idxFail : Byte := 255#8

/-- `DEG_FAIL` = -1.0 as its binary32 pattern (R6, R67). -/
def degFail : Word := 0xBF800000#32

/-- `LBL_FAIL` = "error", the bytes 65 72 72 6F 72 hex (R6, R126). -/
def lblFail : List Byte := [0x65#8, 0x72#8, 0x72#8, 0x6F#8, 0x72#8]

/-- `SENTINEL` (R6). -/
def sentinel : Byte := 0x42#8

/-- `FRAME_LEN` (R6). -/
def frameLen : Nat := 32

/-- `SUM_LEN` (R6): the bytes the checksum covers. -/
def sumLen : Nat := 30

/-- One record of `CAL` (R20, R120). `degrees` is the binary32 pattern of the `FLOAT` value; the tolerance is the constant `tol` (C4). -/
structure CalLevel where
  ref : Int
  degrees : Word
  label : List Byte
deriving DecidableEq, Repr, Inhabited

/-- `CAL[0]`, the one row the source gives: (539, 0.0, "north") (R20, R120). -/
def calNorth : CalLevel := ⟨539, 0#32, [0x6E#8, 0x6F#8, 0x72#8, 0x74#8, 0x68#8]⟩

/-- The two groups of the 16 compass points (R121): the eight primary points, and the eight between them. -/
inductive PointGroup
  | primary
  | intercardinal
deriving DecidableEq, Repr

/-- The OPEN parameters of R6: the two waits of INIT in `tb_ms` units ("each at least 0"), the calibration table, the group of the compass
point each index stands for (R120, R121; log 29) and the scan order. -/
structure Parameters where
  tSettle1 : Nat
  tSettle2 : Nat
  cal : Vector CalLevel nLevels
  groups : Vector PointGroup nLevels
  scan : Vector (Fin nLevels) nLevels
deriving DecidableEq, Repr

/-- "The 8 primary compass points first, then the 8 intercardinal points" (R6, R121): `SCAN[p]` is a primary point exactly for `p` in 0..7. -/
abbrev Parameters.PrimaryFirst (p : Parameters) : Prop :=
  ∀ q : Fin nLevels, p.groups[p.scan[q]] = .primary ↔ q.val < 8

/-- What R129 asks of every `CAL` and `SCAN`: (a) the row 0; (b) no reference value in 540..560; (d) no row holds a failure sentinel;
(c) `SCAN` is a permutation of 0..15 whose first eight entries are the primary points, index 0 among them. -/
abbrev Parameters.Admissible (p : Parameters) : Prop :=
  p.cal[(0 : Fin nLevels)] = calNorth
    ∧ (∀ k : Fin nLevels, ¬ (540 ≤ p.cal[k].ref ∧ p.cal[k].ref ≤ 560))
    ∧ (∀ k : Fin nLevels, p.cal[k].degrees ≠ degFail ∧ p.cal[k].label ≠ lblFail)
    ∧ p.scan.toList.Nodup
    ∧ p.PrimaryFirst
    ∧ (0 : Fin nLevels) ∈ p.scan.toList.take 8

/-- The bytes of an ASCII text, for writing labels down. -/
def ascii (t : String) : List Byte := t.toList.map fun c => BitVec.ofNat 8 c.toNat

/-- `CAL_T` of R130: the spec's table for test vectors. Only its row 0 is the hardware's. -/
def calT : Vector CalLevel nLevels := #v[
  calNorth,
  ⟨300, 0x42340000#32, ascii "north-east"⟩,
  ⟨100, 0x42B40000#32, ascii "east"⟩,
  ⟨180, 0x43070000#32, ascii "south-east"⟩,
  ⟨260, 0x43340000#32, ascii "south"⟩,
  ⟨600, 0x43610000#32, ascii "south-west"⟩,
  ⟨900, 0x43870000#32, ascii "west"⟩,
  ⟨820, 0x439D8000#32, ascii "north-west"⟩,
  ⟨400, 0x41B40000#32, ascii "north-north-east"⟩,
  ⟨60, 0x42870000#32, ascii "east-north-east"⟩,
  ⟨140, 0x42E10000#32, ascii "east-south-east"⟩,
  ⟨220, 0x431D8000#32, ascii "south-south-east"⟩,
  ⟨340, 0x434A8000#32, ascii "south-south-west"⟩,
  ⟨700, 0x43778000#32, ascii "west-south-west"⟩,
  ⟨860, 0x43924000#32, ascii "west-north-west"⟩,
  ⟨760, 0x43A8C000#32, ascii "north-north-west"⟩]

/-- The `group` column of R130's table: indices 0 to 7 primary, 8 to 15 intercardinal. -/
def groupsT : Vector PointGroup nLevels := #v[
  .primary, .primary, .primary, .primary, .primary, .primary, .primary, .primary,
  .intercardinal, .intercardinal, .intercardinal, .intercardinal, .intercardinal, .intercardinal, .intercardinal, .intercardinal]

/-- `SCAN_T` of R130: the identity. -/
def scanT : Vector (Fin nLevels) nLevels := #v[0, 1, 2, 3, 4, 5, 6, 7, 8, 9, 10, 11, 12, 13, 14, 15]

/-- The example parameters of the test vectors with both waits zero: they show that an admissible record exists, nothing more. -/
def exampleParameters : Parameters := ⟨0, 0, calT, groupsT, scanT⟩

/-- A parameter record together with the proof that it is admissible (R129). The field values below only show the type inhabited;
`board` is some value of the type, and nothing can be proved about which. -/
structure Board where
  par : Parameters := exampleParameters
  ok : par.Admissible := by decide
deriving Inhabited

/-- FREE VALUE (log 3): the configured tables and settling times of the chip at hand, OPEN in R6 but for R129. -/
opaque board : Board

/-- FREE VALUE (log 5): `tb_edge` at reset, "any value (a draw at reset)" (R28). -/
opaque tbEdgeAtReset : Time

/-- FREE VALUE (log 5): `tb_ms` at reset, "any value (a draw at reset)" (R28). -/
opaque tbMsAtReset : Time

/-- FREE VALUE (log 8): the n-th answer of the ADC that the input list does not supply; "chosen anew at every call, related to no state
and to no earlier answer" (R143). -/
opaque adcSample : Nat → Word

/-- `WIN_KIND[w]` (R6). -/
def winKind (w : Fin nWin) : WinKind := winKinds[w]

/-- `WIN_CTR[w]` (R6). -/
def winCtr (w : Fin nWin) : Fin nPC := winCtrs[w]

/-- `WIN_K[w]` (R6). -/
def winK (w : Fin nWin) : Ratio := winKs[w]

end Sys2Proof.Config
end

