-- ==== Sys2Proof/Syntax.lean ====
section
/-! DEFINITION. The instructions: one constructor per row of spec/opcode_table.json, eleven commands (R62) and three events (R65). -/

namespace Sys2Proof

/-- The time base an ADVANCE moves (R65: `esel` 0 = `tb_edge`, 1 = `tb_ms`). -/
inductive TimeBase
  | edge
  | ms
deriving DecidableEq, Repr

/-- A command or event with its operands as R63 and R64 assemble them. `sel` and `esel` are the raw fields; WellFormed bounds them. -/
inductive Instr
  /-- INIT pc`sel`, `window` (R86). -/
  | init (sel : Byte) (window : Time)
  /-- READ pc`sel` (R85). -/
  | read (sel : Byte)
  /-- START w`sel` (R101). -/
  | start (sel : Byte)
  /-- QUANT w`sel` (R102). -/
  | quant (sel : Byte)
  /-- CLASSIFY `raw`, the sample in two's complement (R122). -/
  | classify (raw : Word)
  /-- IDX2DEG `index`, unsigned (R125). -/
  | idx2deg (index : Word)
  /-- IDX2LBL `index`, unsigned (R126). -/
  | idx2lbl (index : Word)
  /-- HNEW h`sel` (R141). -/
  | hnew (sel : Byte)
  /-- RECORD h`sel` (R142). -/
  | record (sel : Byte)
  /-- MODE h`sel` (R145). -/
  | mode (sel : Byte)
  /-- POLL (R161). -/
  | poll
  /-- EDGE(`esel`) (R81). -/
  | edge (esel : BitVec 4)
  /-- ADVANCE(`which`, `n`) (R80). -/
  | advance (which : TimeBase) (n : Time)
  /-- RXBYTE `b` (R160). -/
  | rxbyte (b : Byte)
deriving DecidableEq, Repr

end Sys2Proof
end

