-- ==== Sys2Proof/WellFormed.lean ====
section
/-! DEFINITION. Well-formed instructions: the selector is legal for the row (20_memory.md R45, 30_encoding.md R62, R65, R70). -/

namespace Sys2Proof

open Config

/-- The selector lies in the legal values of its row; rows without a selector have nothing to check. -/
def Instr.wf : Instr → Bool
  | .init sel _ => decide (sel.toNat < nPC)
  | .read sel => decide (sel.toNat < nPC)
  | .start sel => decide (sel.toNat < nWin)
  | .quant sel => decide (sel.toNat < nWin)
  | .classify _ => true
  | .idx2deg _ => true
  | .idx2lbl _ => true
  | .hnew sel => decide (sel.toNat < nHist)
  | .record sel => decide (sel.toNat < nHist)
  | .mode sel => decide (sel.toNat < nHist)
  | .poll => true
  | .edge esel => decide (esel.toNat < nPC)
  | .advance _ _ => true
  | .rxbyte _ => true

/-- `wf` as a proposition that `decide` runs on. -/
abbrev Instr.WellFormed (i : Instr) : Prop := i.wf = true

end Sys2Proof
end

