-- ==== Sys2Proof/Decode.lean ====
section
/-! DEFINITION. The decoder of 30_encoding.md: from the two words of a command (R60 to R63, R70, R71) or the code and payload of an event
(R64, R65, R70) to an instruction or a rejection by name; then the encoder from the same tables. -/

namespace Sys2Proof

open Config

/-- What is presented to the block: a command on the command port, or an event (R60, R64). -/
inductive Packet
  | cmd (cw arg : Word)
  | evt (ev : Byte) (ep : Word)
deriving DecidableEq, Repr

/-- Why a packet is no instruction. -/
inductive Reject
  /-- The `op` is not one of the eleven of R62. -/
  | unassignedOpcode
  /-- The `rsv` field is not zero. -/
  | reservedNotZero
  /-- The `sel` is outside the legal values of its row. -/
  | selOutOfRange
  /-- The event `kind` is not 1, 2 or 3. -/
  | unassignedKind
  /-- The `esel` is outside the legal values of its row. -/
  | eselOutOfRange
  /-- RXBYTE with `EP[31:8]` not zero (R64). -/
  | payloadNotZero
deriving DecidableEq, Repr

/-- The eleven opcodes of R62. -/
inductive Op
  | init | read | start | quant | classify | idx2deg | idx2lbl | hnew | record | mode | poll
deriving DecidableEq, Repr

/-- The `op` column of R62. -/
def Op.code : Op → Byte
  | .init => 0x01#8
  | .read => 0x02#8
  | .start => 0x10#8
  | .quant => 0x11#8
  | .classify => 0x20#8
  | .idx2deg => 0x21#8
  | .idx2lbl => 0x22#8
  | .hnew => 0x30#8
  | .record => 0x31#8
  | .mode => 0x32#8
  | .poll => 0x40#8

/-- The opcode a byte selects, none for the unassigned ones of R71. -/
def Op.ofCode (c : Byte) : Option Op :=
  if c = 0x01#8 then some .init
  else if c = 0x02#8 then some .read
  else if c = 0x10#8 then some .start
  else if c = 0x11#8 then some .quant
  else if c = 0x20#8 then some .classify
  else if c = 0x21#8 then some .idx2deg
  else if c = 0x22#8 then some .idx2lbl
  else if c = 0x30#8 then some .hnew
  else if c = 0x31#8 then some .record
  else if c = 0x32#8 then some .mode
  else if c = 0x40#8 then some .poll
  else none

/-- How many selectors are legal, counted from 0 (the "legal `sel`" column of R62; R45). -/
def Op.selCount : Op → Nat
  | .init => nPC
  | .read => nPC
  | .start => nWin
  | .quant => nWin
  | .classify => 1
  | .idx2deg => 1
  | .idx2lbl => 1
  | .hnew => nHist
  | .record => nHist
  | .mode => nHist
  | .poll => 1

/-- The instruction of an opcode with its selector and argument; what a row does not use is ignored (R63). -/
def Op.instr (sel : Byte) (arg : Word) : Op → Instr
  | .init => .init sel arg
  | .read => .read sel
  | .start => .start sel
  | .quant => .quant sel
  | .classify => .classify arg
  | .idx2deg => .idx2deg arg
  | .idx2lbl => .idx2lbl arg
  | .hnew => .hnew sel
  | .record => .record sel
  | .mode => .mode sel
  | .poll => .poll

/-- `CW[31:24]` (R61). -/
def opField (cw : Word) : Byte := cw.extractLsb' 24 8

/-- `CW[23:16]` (R61). -/
def selField (cw : Word) : Byte := cw.extractLsb' 16 8

/-- `CW[15:0]` (R61). -/
def rsvField (cw : Word) : Half := cw.extractLsb' 0 16

/-- Decoding a command (R62, R63); each way of being illegal is one of R70's. -/
def decodeCommand (cw arg : Word) : Except Reject Instr :=
  match Op.ofCode (opField cw) with
  | none => .error .unassignedOpcode
  | some op =>
    if rsvField cw ≠ 0#16 then .error .reservedNotZero
    else if (selField cw).toNat < op.selCount then .ok (op.instr (selField cw) arg)
    else .error .selOutOfRange

/-- `EV[7:4]` (R64). -/
def kindField (ev : Byte) : BitVec 4 := ev.extractLsb' 4 4

/-- `EV[3:0]` (R64). -/
def eselField (ev : Byte) : BitVec 4 := ev.extractLsb' 0 4

/-- Decoding an event (R64, R65). An ADVANCE with payload 0 is accepted and moves nothing (log 15). -/
def decodeEvent (ev : Byte) (ep : Word) : Except Reject Instr :=
  if kindField ev = 1#4 then
    if (eselField ev).toNat < nPC then .ok (.edge (eselField ev)) else .error .eselOutOfRange
  else if kindField ev = 2#4 then
    if eselField ev = 0#4 then .ok (.advance .edge ep)
    else if eselField ev = 1#4 then .ok (.advance .ms ep)
    else .error .eselOutOfRange
  else if kindField ev = 3#4 then
    if eselField ev ≠ 0#4 then .error .eselOutOfRange
    else if ep.extractLsb' 8 24 ≠ 0#24 then .error .payloadNotZero
    else .ok (.rxbyte (ep.extractLsb' 0 8))
  else .error .unassignedKind

/-- The decoder: total on every packet. -/
def decode : Packet → Except Reject Instr
  | .cmd cw arg => decodeCommand cw arg
  | .evt ev ep => decodeEvent ev ep

/-- A command word from its fields (R61), `rsv` zero. -/
def commandWord (op : Op) (sel : Byte) : Word := op.code ++ sel ++ 0#16

/-- An event code from its fields (R64). -/
def eventCode (kind esel : BitVec 4) : Byte := kind ++ esel

/-- The `esel` of a time base (R65). -/
def TimeBase.esel : TimeBase → BitVec 4
  | .edge => 0#4
  | .ms => 1#4

/-- The words of an instruction (R62, R65, R73); words a row ignores are written 0 (log 24). -/
def encode : Instr → Packet
  | .init sel window => .cmd (commandWord .init sel) window
  | .read sel => .cmd (commandWord .read sel) 0#32
  | .start sel => .cmd (commandWord .start sel) 0#32
  | .quant sel => .cmd (commandWord .quant sel) 0#32
  | .classify raw => .cmd (commandWord .classify 0#8) raw
  | .idx2deg index => .cmd (commandWord .idx2deg 0#8) index
  | .idx2lbl index => .cmd (commandWord .idx2lbl 0#8) index
  | .hnew sel => .cmd (commandWord .hnew sel) 0#32
  | .record sel => .cmd (commandWord .record sel) 0#32
  | .mode sel => .cmd (commandWord .mode sel) 0#32
  | .poll => .cmd (commandWord .poll 0#8) 0#32
  | .edge esel => .evt (eventCode 1#4 esel) 0#32
  | .advance which n => .evt (eventCode 2#4 which.esel) n
  | .rxbyte b => .evt (eventCode 3#4 0#4) (b.setWidth 32)

/-- The packet whose bits, numbered as spec/opcode_table.json numbers them, are `w` (log 20). Commands are 32 bits in the table (64 with
`ARG` above), events 8 (40 with `EP` above); the bits above `nbits` are 0. -/
def packetOf (nbits w : Nat) : Packet :=
  let v := w % 2 ^ nbits
  if nbits = 8 ∨ nbits = 40 then .evt (BitVec.ofNat 8 v) (BitVec.ofNat 32 (v / 2 ^ 8))
  else .cmd (BitVec.ofNat 32 v) (BitVec.ofNat 32 (v / 2 ^ 32))

/-- The instruction the decoder reads from the table's bits, none where it rejects. -/
def decodeTableWord (nbits w : Nat) : Option Instr :=
  match decode (packetOf nbits w) with
  | .ok i => some i
  | .error _ => none

end Sys2Proof
end

