-- ==== Sys2Proof/Machine/State.lean ====
section
/-! DEFINITION. The state of 10_state.md as plain data, its reset (R28, R210), the responses of 30_encoding.md R66 and 60_exceptions.md R180,
and the reasons a step can stop. -/

namespace Sys2Proof.Machine

open Config

/-- The six statuses of R180; codes 0x06 to 0xFF are never produced, so they have no constructor. -/
inductive Status
  | ok
  | notReady
  | noMatch
  | integrity
  | precond
  | illegal
deriving DecidableEq, Repr

/-- The payload kinds of R66. -/
inductive Payload
  /-- R32: `value`. -/
  | r32 (value : Word)
  /-- RTXT: an ASCII byte string with its length, no terminator. -/
  | rtxt (text : List Byte)
  /-- RREC: `f[0..14]`. -/
  | rrec (fields : Vector Half nFields)
deriving DecidableEq, Repr

/-- A response (R66). -/
structure Response where
  status : Status
  payload : Payload
deriving DecidableEq, Repr

/-- Unit PC, one counter (R13 to R16). `last` is the spec's `let` (the document's `last_event_time`). -/
structure PulseCounter where
  count : Count
  last : Time
  dbw : Time
  armed : Bool
deriving DecidableEq, Repr

/-- Unit WM, one window (R18). `baseTime` exists for a RATE window only; for an ACC window no rule reads or writes it (log 21). -/
structure Window where
  baseCount : Count
  baseTime : Time
  started : Bool
deriving DecidableEq, Repr

/-- Unit DN, one histogram (R21). -/
structure Histogram where
  buckets : Vector Bucket nLevels
  valid : Bool
deriving DecidableEq, Repr

/-- The phase of the INIT in progress (R22). -/
inductive HPhase
  | idle
  | settle1
  | settle2
deriving DecidableEq, Repr

/-- One entry of the schedule (R46): which agent takes the next step (R30). -/
inductive Turn
  /-- The HOST agent: its next command, or the next phase of the INIT it is inside. -/
  | host
  /-- An event of EDGESRC, TIME or RXSRC, by its code and payload (R64). -/
  | event (ev : Byte) (ep : Word)
deriving DecidableEq, Repr

/-- Everything the spec gives the machine, and the inputs it reads. -/
structure State where
  /-- The pulse counters (R13 to R16). -/
  pcs : Vector PulseCounter nPC
  /-- The measurement windows (R18). -/
  wins : Vector Window nWin
  /-- The histograms (R21). -/
  hists : Vector Histogram nHist
  /-- The time base `tb_edge` (R12). -/
  tbEdge : Time
  /-- The time base `tb_ms` (R12). -/
  tbMs : Time
  /-- The host sequencer's phase (R22). -/
  hphase : HPhase
  /-- The counter of the INIT in progress (R22). -/
  hsel : Fin nPC
  /-- `tb_ms` when the current wait began (R22). -/
  ht0 : Time
  /-- The byte queue, head first (R23). -/
  rxq : List Byte
  /-- The read-only tables `CAL`, `SCAN` (R20) and the settling times (R6); no step writes them (log 3). -/
  cfg : Parameters
  /-- The model's: the host's command list still to be issued, each `(CW, ARG)` (R11, R27; log 1). -/
  cmds : List (Word × Word)
  /-- The model's: the rest of the interleaving (R27, R46; log 1). -/
  sched : List Turn
  /-- The model's: answers the ADC agent is going to give, first one first (R143; log 8). -/
  adc : List Word
  /-- The model's: how many samples have been drawn from the free value (R143; log 8). -/
  adcDraws : Nat
  /-- The model's: the responses driven so far, newest first (R66; log 9). -/
  rsps : List Response
deriving DecidableEq, Repr

/-- Why the machine stops with a fault: it never does. "There are no fatal conditions inside this core" (R180, R181): PRECOND and ILLEGAL
are statuses of a response, after which the block accepts the next command. No constructor, so nobody raises one; safe. -/
inductive Fault
deriving DecidableEq, Repr

/-- Why a step has no meaning. -/
inductive Refusal
  /-- An instruction without a meaning; the host's name for it. Raised by `exec` only, and no arm of it does; safe. -/
  | notModelled (mnemonic : String)
  /-- An event word that is not an event of the block: "the model has no such step" (R70). Raised by the event turn of the schedule, and by
  `exec` on an EDGE term whose `esel` is outside 0..N_PC-1; safe. -/
  | notAnEvent
deriving DecidableEq, Repr

/-- A counter at reset (R28). -/
def PulseCounter.reset : PulseCounter := ⟨0#32, 0#32, 0#32, false⟩

/-- A window at reset (R28); the baselines, "no value" there, hold 0 behind `started` (log 6). -/
def Window.reset : Window := ⟨0#32, 0#32, false⟩

/-- A histogram at reset (R28); the buckets, "no value" there, hold 0 behind `valid` (log 6). -/
def Histogram.reset : Histogram := ⟨Vector.replicate nLevels 0#32, false⟩

/-- The machine right after power-up (R28, R210), with no input placed (log 1, log 27). -/
def State.reset : State where
  pcs := Vector.replicate nPC PulseCounter.reset
  wins := Vector.replicate nWin Window.reset
  hists := Vector.replicate nHist Histogram.reset
  tbEdge := tbEdgeAtReset
  tbMs := tbMsAtReset
  hphase := .idle
  hsel := 0
  ht0 := 0#32
  rxq := []
  cfg := board.par
  cmds := []
  sched := []
  adc := []
  adcDraws := 0
  rsps := []

end Sys2Proof.Machine
end

