-- ==== Sys2Proof/Machine/Ops.lean ====
section
/-! DEFINITION. The named operations over the state: access to the instances picked by a selector (20_memory.md R45), time (R82), responses
(30_encoding.md R66), raising a fault (60_exceptions.md R181), the byte queue's primitives (20_memory.md R41) and the ADC (43_denoiser.md R143). -/

namespace Sys2Proof.Machine

open Config

/-- What an instruction's meaning answers. -/
abbrev Out := Host.Outcome State Fault Refusal

/-- The 8-bit code of a status (R180). -/
def Status.code : Status → Byte
  | .ok => 0x00#8
  | .notReady => 0x01#8
  | .noMatch => 0x02#8
  | .integrity => 0x03#8
  | .precond => 0x04#8
  | .illegal => 0x05#8

/-- `pc i`'s record. -/
def State.counter (s : State) (i : Fin nPC) : PulseCounter := s.pcs[i]

/-- The record of counter `i` replaced. -/
def State.setCounter (s : State) (i : Fin nPC) (c : PulseCounter) : State := { s with pcs := s.pcs.set i c }

/-- Window `w`'s record. -/
def State.window (s : State) (w : Fin nWin) : Window := s.wins[w]

/-- The record of window `w` replaced. -/
def State.setWindow (s : State) (w : Fin nWin) (x : Window) : State := { s with wins := s.wins.set w x }

/-- Histogram `h`'s record. -/
def State.histogram (s : State) (h : Fin nHist) : Histogram := s.hists[h]

/-- The record of histogram `h` replaced. -/
def State.setHistogram (s : State) (h : Fin nHist) (x : Histogram) : State := { s with hists := s.hists.set h x }

/-- A time base's value (R12). -/
def State.timeBase (s : State) : TimeBase → Time
  | .edge => s.tbEdge
  | .ms => s.tbMs

/-- A time base replaced (R80). -/
def State.setTimeBase (s : State) (which : TimeBase) (t : Time) : State :=
  match which with
  | .edge => { s with tbEdge := t }
  | .ms => { s with tbMs := t }

/-- The host sequencer's three registers replaced (R22). -/
def State.setSequencer (s : State) (phase : HPhase) (sel : Fin nPC) (t0 : Time) : State :=
  { s with hphase := phase, hsel := sel, ht0 := t0 }

/-- The byte queue replaced (R23). -/
def State.setRxq (s : State) (q : List Byte) : State := { s with rxq := q }

/-- The host's remaining command list replaced (R27). -/
def State.setCmds (s : State) (l : List (Word × Word)) : State := { s with cmds := l }

/-- The remaining schedule replaced (R27). -/
def State.setSched (s : State) (l : List Turn) : State := { s with sched := l }

/-- The ADC agent's registers replaced: the answers still to come, and how many free ones were drawn (R143). -/
def State.setAdc (s : State) (l : List Word) (n : Nat) : State := { s with adc := l, adcDraws := n }

/-- The response driven at the end of a command, put in front of the earlier ones (R66). -/
def State.push (s : State) (r : Response) : State := { s with rsps := r :: s.rsps }

/-- The unsigned wraparound difference of two times (R82, R109): never a signed comparison. -/
def elapsed (now since : Time) : Time := now - since

/-- `respond(status, value)` (R66). -/
def respond (st : Status) (value : Word) (s : State) : Out := .next (s.push ⟨st, .r32 value⟩)

/-- `respond_text(status, bytes)` (R66). -/
def respondText (st : Status) (text : List Byte) (s : State) : Out := .next (s.push ⟨st, .rtxt text⟩)

/-- `respond_rec(status, f)` (R66). -/
def respondRec (st : Status) (f : Vector Half nFields) (s : State) : Out := .next (s.push ⟨st, .rrec f⟩)

/-- `raise`: the block's one way of taking a fault (R181). The command ends with no state change and the response `(code, 0)`; nothing is
saved, no mode changes and there is no handler and so no return (R188). -/
def raise (st : Status) (s : State) : Out := respond st 0#32 s

/-- `RxAvail()` (R41). -/
def State.rxAvail (s : State) : Nat := s.rxq.length

/-- `RxPeek()` (R41): the oldest byte; none on an empty queue, where it has no meaning (U15). -/
def State.rxPeek (s : State) : Option Byte := s.rxq.head?

/-- `RxConsume(n)` (R41), the bytes: the oldest `n`, oldest first. Called only with `n ≤ RxAvail()` (log 18). -/
def State.rxTaken (s : State) (n : Nat) : List Byte := s.rxq.take n

/-- `RxConsume(n)` (R41), the state: those `n` bytes are gone. -/
def State.rxConsume (s : State) (n : Nat) : State := s.setRxq (s.rxq.drop n)

/-- A byte appended at the tail (R160). -/
def State.rxAppend (s : State) (b : Byte) : State := s.setRxq (s.rxq ++ [b])

/-- `draw_adc()`, the sample (R143): the next answer the environment supplies, else the free value at the draw counter. -/
def State.adcAnswer (s : State) : Word :=
  match s.adc with
  | [] => adcSample s.adcDraws
  | a :: _ => a

/-- `draw_adc()`, the state: that answer is used up. -/
def State.adcAdvance (s : State) : State :=
  match s.adc with
  | [] => s.setAdc [] (s.adcDraws + 1)
  | _ :: rest => s.setAdc rest s.adcDraws

end Sys2Proof.Machine
end

