-- ==== Sys2Proof/Machine/Operands.lean ====
section
/-! DEFINITION. The operand forms of 30_encoding.md R63 and the selectors of 20_memory.md R45. -/

namespace Sys2Proof.Machine

open Config

/-- The instance a command's `sel` picks, of `n`; outside them the command is illegal and changes nothing (R45, R70). -/
def selected (n : Nat) (sel : Byte) (s : State) (f : Fin n → Out) : Out :=
  if h : sel.toNat < n then f ⟨sel.toNat, h⟩ else raise .illegal s

/-- The counter an event's `esel` picks; outside them it is no event of the block (R70). -/
def eventCounter (esel : BitVec 4) (f : Fin nPC → Out) : Out :=
  if h : esel.toNat < nPC then f ⟨esel.toNat, h⟩ else .refused .notAnEvent

/-- CLASSIFY's raw sample, and the ADC's: `sint_32` (R63, R143). -/
def rawSample (w : Word) : Int := w.toInt

/-- The level an index argument names: `uint`, all 32 bits; none for 16 and above (R63, R125). -/
def levelOf (index : Word) : Option (Fin nLevels) :=
  if h : index.toNat < nLevels then some ⟨index.toNat, h⟩ else none

/-- An index as a response value, `zext_32(index)` (R67). -/
def indexValue (k : Fin nLevels) : Word := BitVec.ofNat 32 k.val

/-- `IDX_FAIL` as a response value, 0x000000FF (R67). -/
def idxFailValue : Word := idxFail.setWidth 32

/-- A count as a response value, `zext_32(count[i])` (R67). -/
def countValue (c : Count) : Word := c.setWidth 32

end Sys2Proof.Machine
end

