-- ==== Sys2Proof/Machine/Classifier.lean ====
section
/-! DEFINITION. Unit CL, 42_classifier.md: CLASSIFY, IDX2DEG, IDX2LBL. -/

namespace Sys2Proof.Machine

open Config

/-- A level matches when the difference, of mathematical integers, is at most `TOL` (R122, R123). -/
def levelMatches (p : Parameters) (raw : Int) (k : Fin nLevels) : Bool :=
  decide ((raw - p.cal[k].ref).natAbs ≤ tol)

/-- The scan: the first level in `SCAN` order that matches (R122, R124). -/
def classify (p : Parameters) (raw : Int) : Option (Fin nLevels) := p.scan.toList.find? (levelMatches p raw)

/-- The answer of CLASSIFY (R122): the index of the level found, or NO_MATCH with 0x000000FF. -/
def classAnswer : Option (Fin nLevels) → Status × Word
  | some k => (.ok, indexValue k)
  | none => (.noMatch, idxFailValue)

/-- CLASSIFY `raw` (R122). -/
def execClassify (raw : Word) (s : State) : Out :=
  respond (classAnswer (classify s.cfg (rawSample raw))).1 (classAnswer (classify s.cfg (rawSample raw))).2 s

/-- IDX2DEG `index` (R125). -/
def execIdx2deg (index : Word) (s : State) : Out :=
  match levelOf index with
  | some k => respond .ok s.cfg.cal[k].degrees s
  | none => respond .noMatch degFail s

/-- IDX2LBL `index` (R126). -/
def execIdx2lbl (index : Word) (s : State) : Out :=
  match levelOf index with
  | some k => respondText .ok s.cfg.cal[k].label s
  | none => respondText .noMatch lblFail s

end Sys2Proof.Machine
end

