-- ==== Sys2Proof/Machine/Flags.lean ====
section
/-! DEFINITION. The one-bit state elements of 10_state.md R25: `armed[i]`, `started[w]`, `hvalid[h]`. The block has no condition codes and no
arithmetic flags. Each bit is set by one command, cleared only by reset, and tested here. -/

namespace Sys2Proof.Machine

open Config

/-- `armed[i]` (R16): EDGE(i) is delivered only while it is 1. -/
def State.isArmed (s : State) (i : Fin nPC) : Bool := (s.counter i).armed

/-- `armed[i] <- 1` (R88). -/
def State.arm (s : State) (i : Fin nPC) : State := s.setCounter i { s.counter i with armed := true }

/-- `started[w]` (R18): QUANT(w) has its precondition. -/
def State.isStarted (s : State) (w : Fin nWin) : Bool := (s.window w).started

/-- `hvalid[h]` (R21): RECORD(h) and MODE(h) have their precondition. -/
def State.isValid (s : State) (h : Fin nHist) : Bool := (s.histogram h).valid

/-- A command that needs a guard bit: PRECOND when it is 0, decided from the bit alone (R183). -/
def guarded (bit : Bool) (s : State) (body : Out) : Out := if bit then body else raise .precond s

end Sys2Proof.Machine
end

