-- ==== Sys2Proof/Machine/Denoiser.lean ====
section
/-! DEFINITION. Unit DN, 43_denoiser.md: HNEW, RECORD, MODE. -/

namespace Sys2Proof.Machine

open Config

/-- Sixteen zeros, created (R141). -/
def Histogram.fresh : Histogram := ⟨Vector.replicate nLevels 0#32, true⟩

/-- HNEW h`h` (R141). -/
def execHnew (sel : Byte) (s : State) : Out :=
  selected nHist sel s fun h => respond .ok 0#32 (s.setHistogram h Histogram.fresh)

/-- One bucket incremented, modulo 2^W_HIST (R142, R144); a failed classification is dropped. -/
def Histogram.recorded (x : Histogram) : Option (Fin nLevels) → Histogram
  | some k => { x with buckets := x.buckets.set k (x.buckets[k] + 1#32) }
  | none => x

/-- RECORD h`h`: PRECOND draws no sample; otherwise one draw, one classification, and the same response whether or not it matched (R142). -/
def execRecord (sel : Byte) (s : State) : Out :=
  selected nHist sel s fun h =>
    guarded (s.isValid h) s
      (respond .ok 0#32
        (s.adcAdvance.setHistogram h
          ((s.histogram h).recorded (classify s.cfg (rawSample s.adcAnswer)))))

/-- The scan of MODE over the buckets from index `k` on, with the best index and count so far; strictly greater replaces (R145, R146). -/
def scanMode : List Bucket → Nat → Nat → Bucket → Nat
  | [], _, best, _ => best
  | c :: rest, k, best, bestc =>
    if bestc < c then scanMode rest (k + 1) k c else scanMode rest (k + 1) best bestc

/-- The index MODE finds, `IDX_FAIL` = 255 when every bucket is zero (R145). -/
def Histogram.mode (x : Histogram) : Nat := scanMode x.buckets.toList 0 idxFail.toNat 0#32

/-- The answer of MODE (R145): the index found, or NO_MATCH with 0x000000FF. -/
def modeAnswer (best : Nat) : Status × Word :=
  if best = idxFail.toNat then (.noMatch, idxFailValue) else (.ok, BitVec.ofNat 32 best)

/-- MODE h`h` (R145, R147). -/
def execMode (sel : Byte) (s : State) : Out :=
  selected nHist sel s fun h =>
    guarded (s.isValid h) s
      (respond (modeAnswer (s.histogram h).mode).1 (modeAnswer (s.histogram h).mode).2 s)

end Sys2Proof.Machine
end

