-- ==== Sys2Proof/Machine/FrameDecoder.lean ====
section
/-! DEFINITION. Unit FD, 44_frame_decoder.md: RXBYTE and POLL. -/

namespace Sys2Proof.Machine

open Config

/-- RXBYTE `b` (R160). -/
def execRxbyte (b : Byte) (s : State) : Out := .next (s.rxAppend b)

/-- The big-endian 16-bit value of two bytes, `hi * 256 + lo` (R42). -/
def bigEndian (hi lo : Byte) : Half := hi ++ lo

/-- `f[j] = b[2+2j] * 256 + b[3+2j]` (R162, R163). -/
def frameField (b : List Byte) (j : Fin nFields) : Half :=
  bigEndian (b.getD (2 + 2 * j.val) 0#8) (b.getD (3 + 2 * j.val) 0#8)

/-- `f[0..14]` (R163). -/
def frameFields (b : List Byte) : Vector Half nFields := Vector.ofFn (frameField b)

/-- The sum of bytes in a 16-bit accumulator that wraps (R162, R167). -/
def sum16 (b : List Byte) : Half := b.foldl (fun acc x => acc + x.setWidth 16) 0#16

/-- The checksum of a frame: over its first `SUM_LEN` bytes (R162). -/
def frameSum (b : List Byte) : Half := sum16 (b.take sumLen)

/-- Steps 4 and 5 of POLL on the 32 bytes consumed (R162). -/
def acceptFrame (b : List Byte) (s : State) : Out :=
  if frameSum b ≠ frameField b 14 then respond .integrity 0#32 s else respondRec .ok (frameFields b) s

/-- POLL: the five steps, one atomic step of the machine (R161, R162). -/
def execPoll (s : State) : Out :=
  if s.rxAvail = 0 then respond .notReady 0#32 s
  else if s.rxPeek ≠ some sentinel then respond .notReady 0#32 (s.rxConsume 1)
  else if s.rxAvail < frameLen then respond .notReady 0#32 s
  else acceptFrame (s.rxTaken frameLen) (s.rxConsume frameLen)

end Sys2Proof.Machine
end

