-- ==== Sys2Proof/Machine/PulseCounter.lean ====
section
/-! DEFINITION. Unit PC, 40_pulse_counter.md: ADVANCE, EDGE, READ and the three phases of INIT. -/

namespace Sys2Proof.Machine

open Config

/-- ADVANCE(which, n): the time base moves forward by `n`, modulo 2^W_TIME (R80). -/
def execAdvance (which : TimeBase) (n : Time) (s : State) : Out :=
  .next (s.setTimeBase which (s.timeBase which + n))

/-- Whether an edge at time `now` is counted: strictly more than the window after the previous delivered edge, unsigned (R81, R82). -/
def edgeCounts (c : PulseCounter) (now : Time) : Bool := decide (c.dbw < elapsed now c.last)

/-- An armed counter after an edge delivered at `now`: the comparison is with the previous `let`, which is then overwritten whether or not
the edge was counted (R81). -/
def PulseCounter.onEdge (c : PulseCounter) (now : Time) : PulseCounter :=
  { c with count := if edgeCounts c now then c.count + 1#32 else c.count, last := now }

/-- EDGE(i): nothing changes while the counter is not armed (R81). -/
def execEdge (esel : BitVec 4) (s : State) : Out :=
  eventCounter esel fun i =>
    .next (if s.isArmed i then s.setCounter i ((s.counter i).onEdge s.tbEdge) else s)

/-- READ pc`i`: the torn-free snapshot of `count[i]` (R85, R47). -/
def execRead (sel : Byte) (s : State) : Out :=
  selected nPC sel s fun i => respond .ok (countValue (s.counter i).count) s

/-- INIT phase 1, configure (R87). -/
def initConfigure (i : Fin nPC) (window : Time) (s : State) : State :=
  (s.setCounter i { s.counter i with dbw := window }).setSequencer .settle1 i s.tbMs

/-- INIT pc`i`, `window`: the step the command itself takes is phase 1; the response comes from phase 3 (R86). The host issues it with
`hphase` = IDLE only, which the host's turn sees to (R87, R90; log 19). -/
def execInit (sel : Byte) (window : Time) (s : State) : Out :=
  selected nPC sel s fun i => .next (initConfigure i window s)

/-- The wait of phase 2 or 3 is over: a lower bound, measured on `tb_ms` (R88, R89). -/
def waited (wait : Nat) (s : State) : Bool := decide (wait ≤ (elapsed s.tbMs s.ht0).toNat)

/-- INIT phase 2, arm (R88). -/
def initArm (s : State) : State := (s.arm s.hsel).setSequencer .settle2 s.hsel s.tbMs

/-- INIT phase 3, clear: `count` and only `count`, then the response (R89). `hsel` and `ht0` keep their values; no rule reads them while
`hphase` is IDLE (U12). -/
def initClear (s : State) : Out :=
  respond .ok 0#32
    ((s.setCounter s.hsel { s.counter s.hsel with count := 0#32 }).setSequencer .idle s.hsel s.ht0)

end Sys2Proof.Machine
end

