-- ==== Sys2Proof/Machine/Rounding.lean ====
section
/-! DEFINITION. `RND` and `f32bits` of 41_windowed_measurement.md R107: the binary32 pattern nearest an exact non-negative rational, ties to
even, rounded once (decision D13). -/

namespace Sys2Proof.Machine

open Config

/-- The natural number nearest `n / d`, ties to even. -/
def roundHalfEven (n d : Nat) : Nat :=
  let f := n / d
  let r := n % d
  if 2 * r < d then f else if d < 2 * r then f + 1 else f + f % 2

/-- The pattern of positive infinity, which no rule's value reaches (R107). -/
def f32Infinity : Nat := 0x7F800000

/-- `f32bits(RND(q))` (R107). In units of 2^-149 (the spacing of the smallest binary32 values) the value is `q * 2^149`; `shift` is how many
binary places of it lie below the 24-bit significand (0 for subnormals), so the pattern is the exponent step `shift * 2^23` plus the rounded
significand, and a significand that rounds up to 2^24 carries into the exponent by itself. -/
def rnd (q : Ratio) : Word :=
  let scaled := q.num * 2 ^ 149
  let shift := Nat.log2 (scaled / q.den) - 23
  BitVec.ofNat 32 (min (shift * 2 ^ 23 + roundHalfEven scaled (q.den * 2 ^ shift)) f32Infinity)

end Sys2Proof.Machine
end

