-- ==== Sys2Proof/Machine/WindowedMeasurement.lean ====
section
/-! DEFINITION. Unit WM, 41_windowed_measurement.md: START and QUANT. -/

namespace Sys2Proof.Machine

open Config

/-- A window's record after START: the count snapshot, the time snapshot of a RATE window only, and `started` (R101). -/
def Window.restarted (x : Window) (kind : WinKind) (count : Count) (now : Time) : Window :=
  match kind with
  | .acc => { x with baseCount := count, started := true }
  | .rate => { x with baseCount := count, baseTime := now, started := true }

/-- START w`w` (R101). -/
def execStart (sel : Byte) (s : State) : Out :=
  selected nWin sel s fun w =>
    respond .ok 0#32
      (s.setWindow w ((s.window w).restarted (winKind w) (s.counter (winCtr w)).count s.tbMs))

/-- The counted edges of a window: the unsigned wraparound difference of counts (R108). -/
def State.delta (s : State) (w : Fin nWin) : Count := (s.counter (winCtr w)).count - (s.window w).baseCount

/-- The exact quantity of an accumulated window, `delta * WIN_K[w]` (R103). -/
def accQuantity (k : Ratio) (delta : Count) : Ratio := ⟨delta.toNat * k.num, k.den⟩

/-- The exact quantity of a rate window, `(delta / el) * WIN_K[w]`, a division of real numbers (R104). -/
def rateQuantity (k : Ratio) (delta : Count) (el : Time) : Ratio := ⟨delta.toNat * k.num, el.toNat * k.den⟩

/-- The response of QUANT on a started window (R103 to R105): zero elapsed time of a rate window is NOT_READY with +0.0. -/
def State.quantity (s : State) (w : Fin nWin) : Status × Word :=
  match winKind w with
  | .acc => (.ok, rnd (accQuantity (winK w) (s.delta w)))
  | .rate =>
    let el := elapsed s.tbMs (s.window w).baseTime
    if el = 0#32 then (.notReady, 0#32) else (.ok, rnd (rateQuantity (winK w) (s.delta w) el))

/-- QUANT w`w` (R102, R110). -/
def execQuant (sel : Byte) (s : State) : Out :=
  selected nWin sel s fun w =>
    guarded (s.isStarted w) s (respond (s.quantity w).1 (s.quantity w).2 s)

end Sys2Proof.Machine
end

