-- ==== Sys2Proof/Machine/Dispatch.lean ====
section
/-! DEFINITION. The dispatch: one arm per constructor of Instr. -/

namespace Sys2Proof.Machine

def exec (i : Instr) (s : State) : Host.Outcome State Fault Refusal :=
  match i with
  | .init sel window => Sys2Proof.Machine.execInit sel window s
  | .read sel => Sys2Proof.Machine.execRead sel s
  | .start sel => Sys2Proof.Machine.execStart sel s
  | .quant sel => Sys2Proof.Machine.execQuant sel s
  | .classify raw => Sys2Proof.Machine.execClassify raw s
  | .idx2deg index => Sys2Proof.Machine.execIdx2deg index s
  | .idx2lbl index => Sys2Proof.Machine.execIdx2lbl index s
  | .hnew sel => Sys2Proof.Machine.execHnew sel s
  | .record sel => Sys2Proof.Machine.execRecord sel s
  | .mode sel => Sys2Proof.Machine.execMode sel s
  | .poll => Sys2Proof.Machine.execPoll s
  | .edge esel => Sys2Proof.Machine.execEdge esel s
  | .advance which n => Sys2Proof.Machine.execAdvance which n s
  | .rxbyte b => Sys2Proof.Machine.execRxbyte b s

end Sys2Proof.Machine
end

