-- ==== Sys2Proof/Machine/Agents.lean ====
section
/-! DEFINITION. The agents of 10_state.md R30 taking their turns: the host inside and outside INIT (40_pulse_counter.md R87 to R90), and
the events (20_memory.md R46). -/

namespace Sys2Proof.Machine

open Config

/-- A command on the command port (R60): ILLEGAL is decided first, from `CW` alone (R70, R183). -/
def issue (cw arg : Word) (s : State) : Out :=
  match decode (.cmd cw arg) with
  | .ok i => exec i s
  | .error _ => raise .illegal s

/-- The host's turn. Outside INIT it issues its next command; with none left the turn passes (R211). Inside INIT it has no step but the next
phase, once the wait is over; until then the turn passes (R88 to R90; log 2). -/
def hostTurn (s : State) : Out :=
  match s.hphase with
  | .idle =>
    match s.cmds with
    | [] => .next s
    | (cw, arg) :: rest => issue cw arg (s.setCmds rest)
  | .settle1 => if waited s.cfg.tSettle1 s then .next (initArm s) else .next s
  | .settle2 => if waited s.cfg.tSettle2 s then initClear s else .next s

/-- An event's turn, enabled in every state (R80, R81, R90, R160); a word that is no event is no step (R70; log 13). -/
def eventTurn (ev : Byte) (ep : Word) (s : State) : Out :=
  match decode (.evt ev ep) with
  | .ok i => exec i s
  | .error _ => .refused .notAnEvent

/-- One step of the agent whose turn it is. -/
def takeTurn (t : Turn) (s : State) : Out :=
  match t with
  | .host => hostTurn s
  | .event ev ep => eventTurn ev ep s

/-- One step of the interleaving (R46). With no turn scheduled nothing happens: the block "executes nothing by itself" (R211). -/
def nextTurn (s : State) : Out :=
  match s.sched with
  | [] => .next s
  | t :: rest => takeTurn t (s.setSched rest)

/-- A packet placed where the next step takes it: a command at the head of the host's list, with the host's turn next and the host not inside
an INIT; an event as the next turn (log 1, log 20). -/
def State.place (s : State) : Packet → State
  | .cmd cw arg => { s with cmds := (cw, arg) :: s.cmds, sched := .host :: s.sched, hphase := .idle }
  | .evt ev ep => { s with sched := .event ev ep :: s.sched }

end Sys2Proof.Machine
end

