-- ==== Sys2Proof/Machine/Step.lean ====
section
/-! DEFINITION. One step of the machine. -/

namespace Sys2Proof.Machine

/-- One step: the next turn of the schedule (R46). -/
def step (s : State) : Host.Outcome State Fault Refusal := nextTurn s

/-- `s` with the instruction of the table's bits `w` placed as the next one to run. -/
def State.withFetchWord (s : State) (nbits w : Nat) : State := s.place (packetOf nbits w)

end Sys2Proof.Machine
end

