-- ==== Sys2Proof/Safety.lean ====
section
/-! DEFINITION. The terms claims are stated in: lawful responses, the invariant, runs, delivered edges, frames on the wire, and the number a
binary32 pattern stands for. -/

namespace Sys2Proof.Machine

open Config

/-- What R180 says goes with each status: NOT_READY, INTEGRITY, PRECOND and ILLEGAL carry the value 0, NO_MATCH the failure sentinel of its
return type, and a record goes with OK only (R166). -/
abbrev Response.Lawful (r : Response) : Prop :=
  match r.status with
  | .ok => True
  | .noMatch => r.payload = .r32 0x000000FF#32 ∨ r.payload = .r32 degFail ∨ r.payload = .rtxt lblFail
  | .notReady => r.payload = .r32 0#32
  | .integrity => r.payload = .r32 0#32
  | .precond => r.payload = .r32 0#32
  | .illegal => r.payload = .r32 0#32

/-- The invariant: the tables are admissible (R129), the counter of an INIT in its second wait is armed (R88), and every response driven is
lawful (R180). -/
structure State.Inv (s : State) : Prop where
  cfgAdmissible : s.cfg.Admissible
  settlingArmed : s.hphase = .settle2 → (s.counter s.hsel).armed = true
  responsesLawful : ∀ r ∈ s.rsps, r.Lawful

/-- `n` steps lead from `s` to `t`. -/
def Runs : Nat → State → State → Prop
  | 0, s, t => s = t
  | n + 1, s, t => ∃ u, step s = .next u ∧ Runs n u t

/-- A safe step: the machine goes on. -/
abbrev State.Safe (s : State) : Prop := ∃ t, step s = .next t

/-- The code of EDGE(i) (R65). -/
def edgeCode (i : Fin nPC) : Byte := eventCode 1#4 (BitVec.ofNat 4 i.val)

/-- The schedule in which, for each gap in turn, `tb_edge` advances by the gap and then an edge of counter `i` is delivered. -/
def deliveries (i : Fin nPC) (gaps : List Time) : List Turn :=
  gaps.flatMap fun g => [.event 0x20#8 g, .event (edgeCode i) 0#32]

/-- The sum of the numbers bytes mean, with no modulus. -/
def byteSum (b : List Byte) : Nat := (b.map BitVec.toNat).sum

/-- The two bytes of a 16-bit field, big-endian (R42). -/
def fieldBytes (f : Half) : List Byte := [f.extractLsb' 8 8, f.extractLsb' 0 8]

/-- The first thirty bytes of a frame: the sentinel, the second leading byte and fourteen fields (R163). -/
def frameBody (b1 : Byte) (f : Vector Half 14) : List Byte := sentinel :: b1 :: f.toList.flatMap fieldBytes

/-- The frame that carries fourteen fields with a correct checksum (R163, R168). -/
def goodFrame (b1 : Byte) (f : Vector Half 14) : List Byte :=
  frameBody b1 f ++ fieldBytes (BitVec.ofNat 16 (byteSum (frameBody b1 f)))

/-- A byte sequence with bit `bit` of byte number `pos` flipped. -/
def flipBit (b : List Byte) (pos : Nat) (bit : Fin 8) : List Byte :=
  b.set pos (b.getD pos 0#8 ^^^ (1#8 <<< bit.val))

/-- The finite non-negative number a binary32 pattern below that of infinity stands for, in units of 2^-149. -/
def f32Units (v : Word) : Nat :=
  if v.toNat < 2 ^ 23 then v.toNat else (2 ^ 23 + v.toNat % 2 ^ 23) * 2 ^ (v.toNat / 2 ^ 23 - 1)

end Sys2Proof.Machine
end

