-- ==== Sys2Proof/Certificates/Slice0/Obligations.lean ====
section
/-! DEFINITION. The statements for the provers. Results are written out as the whole next state, so each is also its instruction's frame:
every field not named in the record update is unchanged. A statement about exec of a command gives its effect in every state,
inside an INIT too, where R90 gives the host no command to issue: that much is the model's choice (log 19). -/

open Sys2Proof Sys2Proof.Machine Sys2Proof.Config

/-! ## Encoding -/

/-- Decoding the words of any well-formed instruction gives it back (30_encoding.md sections 1 and 3; the bit positions are the spec's own
decisions D14 and D17). -/
def Obligations.DecodeOfEncodeGivesTheInstruction : Prop :=
  ∀ i : Instr, i.WellFormed → decode (encode i) = .ok i

/-- The other direction: what the decoder accepts is well formed, and its encoding is the accepted command word or event code, every bit of
it (30_encoding.md sections 1 and 3, D14, D16, D17). The argument and payload words may differ where the row ignores them (log 24). -/
def Obligations.AcceptedWordsAreEncodings : Prop :=
  (∀ p i, decode p = .ok i → i.WellFormed) ∧
  (∀ cw arg i, decode (.cmd cw arg) = .ok i → ∃ a, encode i = .cmd cw a ∧ (a = arg ∨ a = 0#32)) ∧
  (∀ ev ep i, decode (.evt ev ep) = .ok i → ∃ p, encode i = .evt ev p ∧ (p = ep ∨ p = 0#32))

/-- A word of each unit, written out from the encodings of 30_encoding.md, decodes to its instruction (D14, D17). -/
def Obligations.SampleWordsDecode : Prop :=
  decode (.cmd 0x01010000#32 7#32) = .ok (.init 1#8 7#32) ∧
  decode (.cmd 0x11010000#32 0#32) = .ok (.quant 1#8) ∧
  decode (.cmd 0x20000000#32 0xFFFFFFFB#32) = .ok (.classify 0xFFFFFFFB#32) ∧
  decode (.cmd 0x31000000#32 0#32) = .ok (.record 0#8) ∧
  decode (.cmd 0x40000000#32 0#32) = .ok .poll ∧
  decode (.evt 0x11#8 0#32) = .ok (.edge 1#4) ∧
  decode (.evt 0x21#8 100#32) = .ok (.advance .ms 100#32) ∧
  decode (.evt 0x30#8 0x4D#32) = .ok (.rxbyte 0x4D#8)

/-! ## Steps -/

/-- A host's turn outside INIT runs the decoded command: step is exec of it, after the command and the turn are taken off their lists (20_memory.md
section 5; the lists are the model's, log 1). -/
def Obligations.StepRunsTheDecodedCommand : Prop :=
  ∀ (s : State) cw arg l rest i, s.sched = .host :: rest → s.hphase = .idle → s.cmds = (cw, arg) :: l →
    decode (.cmd cw arg) = .ok i →
    step s = exec i { s with sched := rest, cmds := l }

/-- An event's turn runs the decoded event in every phase of the host (20_memory.md section 5; the schedule is the model's, log 1). -/
def Obligations.StepRunsTheDecodedEvent : Prop :=
  ∀ (s : State) ev ep rest i, s.sched = .event ev ep :: rest → decode (.evt ev ep) = .ok i →
    step s = exec i { s with sched := rest }

/-- The block executes nothing by itself (70_reset_and_hazards.md section 1): with nothing scheduled, and on a host's turn outside INIT with no
command left, only the schedule moves (log 1, log 2). -/
def Obligations.NothingHappensByItself : Prop :=
  (∀ s : State, s.sched = [] → step s = .next s) ∧
  (∀ (s : State) rest, s.sched = .host :: rest → s.hphase = .idle → s.cmds = [] → step s = .next { s with sched := rest })

/-- A word placed with withFetchWord is the next instruction to run (log 1, log 20: the model's own convention). -/
def Obligations.PlacedWordRunsNext : Prop :=
  ∀ (s : State) nbits w i, decodeTableWord nbits w = some i →
    step (s.withFetchWord nbits w) =
      exec i (match packetOf nbits w with | .cmd _ _ => { s with hphase := .idle } | .evt _ _ => s)

/-- A command that is illegal for its opcode, its reserved field or its selector answers (ILLEGAL, 0) and changes nothing else: no state, no byte,
no sample (30_encoding.md section 3, R70 and R71, decision D16). -/
def Obligations.IllegalCommandChangesNothing : Prop :=
  ∀ (s : State) (cw arg : Word) l rest, s.sched = .host :: rest → s.hphase = .idle → s.cmds = (cw, arg) :: l →
    (cw.extractLsb' 24 8 ∉ [0x01#8, 0x02#8, 0x10#8, 0x11#8, 0x20#8, 0x21#8, 0x22#8, 0x30#8, 0x31#8, 0x32#8, 0x40#8] ∨
      cw.extractLsb' 0 16 ≠ 0#16 ∨
      (if cw.extractLsb' 24 8 ∈ [0x01#8, 0x02#8, 0x10#8, 0x11#8] then 2 else 1) ≤ (cw.extractLsb' 16 8).toNat) →
    step s = .next { s with sched := rest, cmds := l, rsps := ⟨.illegal, .r32 0#32⟩ :: s.rsps }

/-- An event word whose kind is not 1, 2 or 3, or whose selector is not legal for its kind, is no step of the machine (30_encoding.md section 3,
R70, decision D16). -/
def Obligations.NonEventsAreRefused : Prop :=
  ∀ (s : State) (ev : Byte) (ep : Word) rest, s.sched = .event ev ep :: rest →
    (ev.extractLsb' 4 4 ∉ [1#4, 2#4, 3#4] ∨
      (ev.extractLsb' 4 4 ∈ [1#4, 2#4] ∧ 2 ≤ (ev.extractLsb' 0 4).toNat) ∨
      (ev.extractLsb' 4 4 = 3#4 ∧ ev.extractLsb' 0 4 ≠ 0#4)) →
    step s = .refused .notAnEvent

/-- The machine never stops but there: a refusal comes from an event word the decoder rejects and from nothing else, and every well-formed
instruction, in every state, ends in a next state (60_exceptions.md section 1: "There are no fatal conditions inside this core"). The model's
choices in it: a command's meaning in a state inside an INIT, where R90 gives the host no such step (log 19); an ADVANCE by 0, which R80 says
is no step (log 15); the refusal of a word that is no event (log 13), an RXBYTE payload above one byte among them (log 14). -/
def Obligations.TheMachineGoesOn : Prop :=
  (∀ i : Instr, i.WellFormed → ∀ s : State, ∃ t, exec i s = .next t) ∧
  (∀ (s : State) r, step s = .refused r →
    r = .notAnEvent ∧ ∃ ev ep rest e, s.sched = .event ev ep :: rest ∧ decode (.evt ev ep) = .error e)

/-- An ill-formed term is treated as its encoding would be: an illegal command answers ILLEGAL, an EDGE of no counter is no event (30_encoding.md
section 3, R70; log 26). -/
def Obligations.IllFormedTermsHaveNoEffect : Prop :=
  (∀ (s : State) (sel : Byte) (w : Time), 2 ≤ sel.toNat →
    exec (.init sel w) s = .next { s with rsps := ⟨.illegal, .r32 0#32⟩ :: s.rsps } ∧
    exec (.read sel) s = .next { s with rsps := ⟨.illegal, .r32 0#32⟩ :: s.rsps } ∧
    exec (.start sel) s = .next { s with rsps := ⟨.illegal, .r32 0#32⟩ :: s.rsps } ∧
    exec (.quant sel) s = .next { s with rsps := ⟨.illegal, .r32 0#32⟩ :: s.rsps }) ∧
  (∀ (s : State) (sel : Byte), 1 ≤ sel.toNat →
    exec (.hnew sel) s = .next { s with rsps := ⟨.illegal, .r32 0#32⟩ :: s.rsps } ∧
    exec (.record sel) s = .next { s with rsps := ⟨.illegal, .r32 0#32⟩ :: s.rsps } ∧
    exec (.mode sel) s = .next { s with rsps := ⟨.illegal, .r32 0#32⟩ :: s.rsps }) ∧
  (∀ (s : State) (e : BitVec 4), 2 ≤ e.toNat → exec (.edge e) s = .refused .notAnEvent)

/-! ## Unit PC -/

/-- ADVANCE moves one time base forward modulo 2^32 and nothing else, and an ADVANCE by `m + n` is an ADVANCE by `m` and one by `n`
(40_pulse_counter.md section 1, decision D4). R80 gives `n` at least 1 and says that 0 is not a step: that an ADVANCE by 0, or by a sum `m + n`
that wraps to 0, is a next state is the model's choice (log 15). -/
def Obligations.AdvanceMovesOneTimeBase : Prop :=
  (∀ (s : State) n, exec (.advance .edge n) s =
    .next { s with tbEdge := BitVec.ofNat 32 ((s.tbEdge.toNat + n.toNat) % 2 ^ 32) }) ∧
  (∀ (s : State) n, exec (.advance .ms n) s =
    .next { s with tbMs := BitVec.ofNat 32 ((s.tbMs.toNat + n.toNat) % 2 ^ 32) }) ∧
  (∀ (s t : State) b m n, exec (.advance b m) s = .next t → exec (.advance b (m + n)) s = exec (.advance b n) t)

/-- EDGE(i) of an armed counter: the count goes up by one, modulo 2^32, exactly when the unsigned wraparound difference of `tb_edge` and the
previous `let` is greater than the window; `let` takes `tb_edge` either way. Unarmed, nothing changes (40_pulse_counter.md section 2; the
unarmed case is decision D10, the wrap D2). -/
def Obligations.EdgeCountsOverTheWindow : Prop :=
  ∀ (s : State) (i : Fin nPC), exec (.edge (BitVec.ofNat 4 i.val)) s = .next
    (if s.pcs[i].armed then
      { s with pcs := s.pcs.set i { s.pcs[i] with
          count := if s.pcs[i].dbw.toNat < (s.tbEdge.toNat + 2 ^ 32 - s.pcs[i].last.toNat) % 2 ^ 32
            then BitVec.ofNat 32 ((s.pcs[i].count.toNat + 1) % 2 ^ 32) else s.pcs[i].count,
          last := s.tbEdge } }
    else s)

/-- R83: with a window of zero an edge counts exactly when its elapsed time is not zero, so a second edge at the same `tb_edge` does not count. -/
def Obligations.ZeroWindowStillNeedsElapsedTime : Prop :=
  ∀ (s : State) (i : Fin nPC), s.pcs[i].armed = true → s.pcs[i].dbw = 0#32 →
    ∃ t, exec (.edge (BitVec.ofNat 4 i.val)) s = .next t ∧
      t.pcs[i].count = (if s.tbEdge = s.pcs[i].last then s.pcs[i].count else s.pcs[i].count + 1#32) ∧
      ∃ u, exec (.edge (BitVec.ofNat 4 i.val)) t = .next u ∧ u.pcs[i].count = t.pcs[i].count

/-- Hysteresis (40_pulse_counter.md section 2, the spec's derived rule R84): a run of edges each at most `dbw` after the one before counts at most
its first edge, however long it lasts. -/
def Obligations.EdgesInsideTheWindowCountAtMostOnce : Prop :=
  ∀ (s : State) (i : Fin nPC) (g : Time) (gaps : List Time) rest,
    s.sched = deliveries i (g :: gaps) ++ rest → s.pcs[i].armed = true → (∀ x ∈ gaps, x ≤ s.pcs[i].dbw) →
    ∃ t, Runs (2 * (gaps.length + 1)) s t ∧ t.sched = rest ∧ t.pcs[i].last = t.tbEdge ∧
      t.pcs[i].count = (if s.pcs[i].dbw < s.tbEdge + g - s.pcs[i].last then s.pcs[i].count + 1#32 else s.pcs[i].count)

/-- The counting property with its premise (40_pulse_counter.md section 2, the spec's derived rule R92): from a count of zero, if the first edge is
more than the window after `let` and every later gap is more than the window, and fewer than 2^32 edges are delivered, READ answers their number. -/
def Obligations.ReadEqualsTheNumberOfEdgesDelivered : Prop :=
  ∀ (s : State) (i : Fin nPC) (g : Time) (gaps : List Time) rest arg l,
    s.sched = deliveries i (g :: gaps) ++ .host :: rest → s.hphase = .idle →
    s.cmds = (0x02000000#32 ||| (BitVec.ofNat 32 i.val <<< 16), arg) :: l →
    s.pcs[i].armed = true → s.pcs[i].count = 0#32 →
    s.pcs[i].dbw < s.tbEdge + g - s.pcs[i].last → (∀ x ∈ gaps, s.pcs[i].dbw < x) → gaps.length + 1 < 2 ^ 32 →
    ∃ t, Runs (2 * (gaps.length + 1) + 1) s t ∧ t.cmds = l ∧
      t.rsps = ⟨.ok, .r32 (BitVec.ofNat 32 (gaps.length + 1))⟩ :: s.rsps

/-- READ answers all 32 bits of the count and changes nothing (40_pulse_counter.md section 3). -/
def Obligations.ReadAnswersTheCount : Prop :=
  ∀ (s : State) (i : Fin nPC), exec (.read (BitVec.ofNat 8 i.val)) s =
    .next { s with rsps := ⟨.ok, .r32 s.pcs[i].count⟩ :: s.rsps }

/-- INIT's own step is phase 1: the window is written, the first wait begins, nothing is answered yet (40_pulse_counter.md section 4, decision D9).
R87 enables it when `hphase` is IDLE: its effect in the other phases, where the host's turn issues no command, is the model's choice (log 19). -/
def Obligations.InitConfigures : Prop :=
  ∀ (s : State) (i : Fin nPC) (window : Time), exec (.init (BitVec.ofNat 8 i.val) window) s =
    .next { s with pcs := s.pcs.set i { s.pcs[i] with dbw := window }, hphase := .settle1, hsel := i, ht0 := s.tbMs }

/-- Phase 2 arms once the first wait is over, at any later time too, and does nothing before (40_pulse_counter.md section 4, decision D9; a turn
before that passes, log 2). -/
def Obligations.InitArmsAfterTheFirstWait : Prop :=
  ∀ (s : State) rest, s.sched = .host :: rest → s.hphase = .settle1 →
    step s = .next (if s.cfg.tSettle1 ≤ (s.tbMs.toNat + 2 ^ 32 - s.ht0.toNat) % 2 ^ 32 then
      { s with sched := rest, pcs := s.pcs.set s.hsel { s.pcs[s.hsel] with armed := true }, ht0 := s.tbMs, hphase := .settle2 }
    else { s with sched := rest })

/-- Phase 3 clears the count and only the count once the second wait is over, and gives INIT's response; `let` stays (40_pulse_counter.md section
4; a turn before that passes, log 2). -/
def Obligations.InitClearsAfterTheSecondWait : Prop :=
  ∀ (s : State) rest, s.sched = .host :: rest → s.hphase = .settle2 →
    step s = .next (if s.cfg.tSettle2 ≤ (s.tbMs.toNat + 2 ^ 32 - s.ht0.toNat) % 2 ^ 32 then
      { s with sched := rest, pcs := s.pcs.set s.hsel { s.pcs[s.hsel] with count := 0#32 }, hphase := .idle,
               rsps := ⟨.ok, .r32 0#32⟩ :: s.rsps }
    else { s with sched := rest })

/-- A whole INIT, first or repeated: with enough time between its phases it arms the counter, sets its window, clears its count, keeps `let`, and
answers once (40_pulse_counter.md section 4, R86 and R91, decision D9; the schedule is the model's, log 1). -/
def Obligations.InitRunsToItsResponse : Prop :=
  ∀ (s : State) (i : Fin nPC) (window n1 n2 : Time) l rest,
    s.sched = .host :: .event 0x21#8 n1 :: .host :: .event 0x21#8 n2 :: .host :: rest → s.hphase = .idle →
    s.cmds = (0x01000000#32 ||| (BitVec.ofNat 32 i.val <<< 16), window) :: l →
    s.cfg.tSettle1 ≤ n1.toNat → s.cfg.tSettle2 ≤ n2.toNat →
    Runs 5 s { s with
      pcs := s.pcs.set i { s.pcs[i] with dbw := window, armed := true, count := 0#32 }, tbMs := s.tbMs + n1 + n2,
      hphase := .idle, hsel := i, ht0 := s.tbMs + n1, cmds := l, sched := rest, rsps := ⟨.ok, .r32 0#32⟩ :: s.rsps }

/-- Inside INIT the host issues no command, and every event stays enabled (40_pulse_counter.md section 4, decision D28). -/
def Obligations.NoCommandIsIssuedInsideInit : Prop :=
  (∀ (s t : State) rest, s.sched = .host :: rest → s.hphase ≠ .idle → step s = .next t →
    t.cmds = s.cmds ∧ t.wins = s.wins ∧ t.hists = s.hists ∧ t.rxq = s.rxq ∧
      (t.rsps = s.rsps ∨ (t.hphase = .idle ∧ t.rsps = ⟨.ok, .r32 0#32⟩ :: s.rsps))) ∧
  (∀ (s : State) ev ep rest i, s.sched = .event ev ep :: rest → s.hphase ≠ .idle → decode (.evt ev ep) = .ok i →
    ∃ t, step s = .next t ∧ t.hphase = s.hphase ∧ t.hsel = s.hsel ∧ t.ht0 = s.ht0)

/-- Edges of the two counters commute: either order gives the same state (60_exceptions.md section 2, decision D26; 20_memory.md section 5). -/
def Obligations.EdgesOfTwoCountersCommute : Prop :=
  ∀ (s : State) (i j : Fin nPC), i ≠ j →
    ∃ a b t, exec (.edge (BitVec.ofNat 4 i.val)) s = .next a ∧ exec (.edge (BitVec.ofNat 4 j.val)) a = .next t ∧
      exec (.edge (BitVec.ofNat 4 j.val)) s = .next b ∧ exec (.edge (BitVec.ofNat 4 i.val)) b = .next t ∧
      a.pcs[j] = s.pcs[j] ∧ b.pcs[i] = s.pcs[i]

/-! ## Unit WM -/

/-- START takes the count snapshot, the time snapshot of the rate window only, and sets `started` (41_windowed_measurement.md section 1; the bindings
of the windows are decision D3). -/
def Obligations.StartTakesTheBaseline : Prop :=
  ∀ s : State,
    exec (.start 0#8) s = .next { s with
      wins := s.wins.set 0 { s.wins[0] with baseCount := s.pcs[0].count, started := true },
      rsps := ⟨.ok, .r32 0#32⟩ :: s.rsps } ∧
    exec (.start 1#8) s = .next { s with
      wins := s.wins.set 1 { s.wins[1] with baseCount := s.pcs[1].count, baseTime := s.tbMs, started := true },
      rsps := ⟨.ok, .r32 0#32⟩ :: s.rsps }

/-- R103: the accumulated form answers the modular count difference times 0.1397, rounded once, whatever the time; ten edges are 0x3FB2D0E5. -/
def Obligations.AccumulatedQuantity : Prop :=
  ∀ s : State, s.wins[0].started = true →
    exec (.quant 0#8) s = .next { s with
      rsps := ⟨.ok, .r32 (rnd ⟨((s.pcs[0].count.toNat + 2 ^ 32 - s.wins[0].baseCount.toNat) % 2 ^ 32) * 1397, 10000⟩)⟩ :: s.rsps } ∧
    (s.pcs[0].count = s.wins[0].baseCount + 10#32 →
      exec (.quant 0#8) s = .next { s with rsps := ⟨.ok, .r32 0x3FB2D0E5#32⟩ :: s.rsps })

/-- The rate form answers NOT_READY with 0 when no time has elapsed, for every count, and else the exact quotient times 666.667, rounded once
(41_windowed_measurement.md section 2; the zero case is decision D12, the real division D13). -/
def Obligations.RateQuantity : Prop :=
  ∀ s : State, s.wins[1].started = true →
    (s.tbMs = s.wins[1].baseTime →
      exec (.quant 1#8) s = .next { s with rsps := ⟨.notReady, .r32 0#32⟩ :: s.rsps }) ∧
    (s.tbMs ≠ s.wins[1].baseTime →
      exec (.quant 1#8) s = .next { s with
        rsps := ⟨.ok, .r32 (rnd ⟨((s.pcs[1].count.toNat + 2 ^ 32 - s.wins[1].baseCount.toNat) % 2 ^ 32) * 666667,
          ((s.tbMs.toNat + 2 ^ 32 - s.wins[1].baseTime.toNat) % 2 ^ 32) * 1000⟩)⟩ :: s.rsps })

/-- QUANT before START, and RECORD or MODE before HNEW, answer (PRECOND, 0), change nothing and draw no sample (41_windowed_measurement.md section 2,
decision D11; 43_denoiser.md section 3, decision D20). -/
def Obligations.UnmetPreconditionChangesNothing : Prop :=
  (∀ (s : State) (w : Fin nWin), s.wins[w].started = false →
    exec (.quant (BitVec.ofNat 8 w.val)) s = .next { s with rsps := ⟨.precond, .r32 0#32⟩ :: s.rsps }) ∧
  (∀ (s : State) (h : Fin nHist), s.hists[h].valid = false →
    exec (.record (BitVec.ofNat 8 h.val)) s = .next { s with rsps := ⟨.precond, .r32 0#32⟩ :: s.rsps } ∧
    exec (.mode (BitVec.ofNat 8 h.val)) s = .next { s with rsps := ⟨.precond, .r32 0#32⟩ :: s.rsps })

/-- A window restarted and queried at once answers zero (accumulated) or NOT_READY (rate); with time but no edge the rate is zero
(41_windowed_measurement.md section 2, the spec's derived rule R106). -/
def Obligations.RestartThenQueryIsZero : Prop :=
  ∀ s : State,
    (∃ t u, exec (.start 0#8) s = .next t ∧ exec (.quant 0#8) t = .next u ∧ u.rsps = ⟨.ok, .r32 0#32⟩ :: t.rsps) ∧
    (∃ t u, exec (.start 1#8) s = .next t ∧ exec (.quant 1#8) t = .next u ∧ u.rsps = ⟨.notReady, .r32 0#32⟩ :: t.rsps) ∧
    (∀ n : Time, n ≠ 0#32 → ∃ t u v, exec (.start 1#8) s = .next t ∧ exec (.advance .ms n) t = .next u ∧
      exec (.quant 1#8) u = .next v ∧ v.rsps = ⟨.ok, .r32 0#32⟩ :: t.rsps)

/-- Windows are independent: a START or QUANT of one changes no field of another and no answer of its QUANT (41_windowed_measurement.md section 2,
10_state.md section 5). -/
def Obligations.WindowsAreIndependent : Prop :=
  ∀ (s t : State) (w v : Fin nWin) (i : Instr), w ≠ v → i = .start (BitVec.ofNat 8 w.val) ∨ i = .quant (BitVec.ofNat 8 w.val) →
    exec i s = .next t →
    t.wins[v] = s.wins[v] ∧ t.pcs = s.pcs ∧
      ∃ x y r, exec (.quant (BitVec.ofNat 8 v.val)) s = .next x ∧ x.rsps = r :: s.rsps ∧
        exec (.quant (BitVec.ofNat 8 v.val)) t = .next y ∧ y.rsps = r :: t.rsps

/-- `RND(0)` is +0.0, and `RND` depends on the rational alone, not on how it is written (41_windowed_measurement.md section 2, decision D13). -/
def Obligations.RoundingDependsOnTheRationalAlone : Prop :=
  (∀ d, rnd ⟨0, d⟩ = 0#32) ∧
  (∀ p q : Ratio, 0 < p.den → 0 < q.den → p.num * q.den = q.num * p.den → rnd p = rnd q)

/-- `RND(q)` is a finite binary32 value, none is nearer to `q`, and where another is as near `RND(q)` is the one with an even significand
(41_windowed_measurement.md section 2, decision D13). The premise holds for every quantity of a rule, all below 2^32 times 666.667. -/
def Obligations.RoundingIsToNearestTiesToEven : Prop :=
  ∀ q : Ratio, 0 < q.den → q.num < q.den * 2 ^ 127 →
    (rnd q).toNat < 0x7F800000 ∧
    ∀ v : Word, v.toNat < 0x7F800000 →
      ((f32Units (rnd q) * q.den : Int) - q.num * 2 ^ 149).natAbs ≤ ((f32Units v * q.den : Int) - q.num * 2 ^ 149).natAbs ∧
      (((f32Units (rnd q) * q.den : Int) - q.num * 2 ^ 149).natAbs = ((f32Units v * q.den : Int) - q.num * 2 ^ 149).natAbs →
        v = rnd q ∨ (rnd q).toNat % 2 = 0)

/-- A QUANT that answers OK answers +0.0 or a positive normal number: never a NaN, an infinity or a subnormal (41_windowed_measurement.md section 2,
decisions D12 and D13). -/
def Obligations.QuantitiesAreZeroOrNormal : Prop :=
  ∀ (s t : State) (w : Fin nWin) (v : Word), exec (.quant (BitVec.ofNat 8 w.val)) s = .next t →
    t.rsps.head? = some ⟨.ok, .r32 v⟩ →
    v = 0#32 ∨ (0x00800000 ≤ v.toNat ∧ v.toNat < 0x7F800000)

/-- Rain: after START of window 0, any number (below 2^32) of edges of counter 0 each more than the window after the one before is answered by QUANT
as that number times 0.1397, whatever the count was before, across its wrap too (20_memory.md section 5 and
41_windowed_measurement.md sections 1 and 2, decisions D2 and D13). -/
def Obligations.RainIsTheNumberOfEdgesTimesTheConstant : Prop :=
  ∀ (s : State) (g : Time) (gaps : List Time) a1 a2 l rest,
    s.sched = .host :: (deliveries 0 (g :: gaps) ++ .host :: rest) → s.hphase = .idle →
    s.cmds = (0x10000000#32, a1) :: (0x11000000#32, a2) :: l → s.pcs[0].armed = true →
    s.pcs[0].dbw < s.tbEdge + g - s.pcs[0].last → (∀ x ∈ gaps, s.pcs[0].dbw < x) → gaps.length + 1 < 2 ^ 32 →
    ∃ t, Runs (2 * (gaps.length + 1) + 2) s t ∧
      t.rsps = ⟨.ok, .r32 (rnd ⟨(gaps.length + 1) * 1397, 10000⟩)⟩ :: ⟨.ok, .r32 0#32⟩ :: s.rsps

/-! ## Unit CL -/

/-- CLASSIFY answers the first level in scan order whose reference value is within 10, as mathematical integers, inclusive, and NO_MATCH with 255
when there is none (42_classifier.md section 2; inclusive is decision D19). -/
def Obligations.ClassifyAnswersTheFirstMatchInScanOrder : Prop :=
  ∀ (s : State) (raw : Word),
    (∀ p : Fin nLevels, (raw.toInt - s.cfg.cal[s.cfg.scan[p]].ref).natAbs ≤ 10 →
      (∀ q : Fin nLevels, q < p → 10 < (raw.toInt - s.cfg.cal[s.cfg.scan[q]].ref).natAbs) →
      exec (.classify raw) s = .next { s with rsps := ⟨.ok, .r32 (BitVec.ofNat 32 s.cfg.scan[p].val)⟩ :: s.rsps }) ∧
    ((∀ p : Fin nLevels, 10 < (raw.toInt - s.cfg.cal[s.cfg.scan[p]].ref).natAbs) →
      exec (.classify raw) s = .next { s with rsps := ⟨.noMatch, .r32 0x000000FF#32⟩ :: s.rsps })

/-- For every admissible table the sample 550 has no match, and 539 is level 0 when no other level lies within 10 of it (42_classifier.md section 1;
rule R129 alone does not shut such a level out, log 22). -/
def Obligations.TheDocumentsTwoSamples : Prop :=
  ∀ s : State, s.cfg.Admissible →
    exec (.classify 550#32) s = .next { s with rsps := ⟨.noMatch, .r32 0x000000FF#32⟩ :: s.rsps } ∧
    ((∀ k : Fin nLevels, k ≠ 0 → 10 < ((539 : Int) - s.cfg.cal[k].ref).natAbs) →
      exec (.classify 539#32) s = .next { s with rsps := ⟨.ok, .r32 0#32⟩ :: s.rsps })

/-- The two lookups: the record's degrees or label for an index in 0..15, the failure sentinel for every other of the 2^32 (42_classifier.md section
3). -/
def Obligations.LookupsAnswerTheRecordOrTheSentinel : Prop :=
  (∀ (s : State) (k : Fin nLevels),
    exec (.idx2deg (BitVec.ofNat 32 k.val)) s = .next { s with rsps := ⟨.ok, .r32 s.cfg.cal[k].degrees⟩ :: s.rsps } ∧
    exec (.idx2lbl (BitVec.ofNat 32 k.val)) s = .next { s with rsps := ⟨.ok, .rtxt s.cfg.cal[k].label⟩ :: s.rsps }) ∧
  (∀ (s : State) (index : Word), 16 ≤ index.toNat →
    exec (.idx2deg index) s = .next { s with rsps := ⟨.noMatch, .r32 0xBF800000#32⟩ :: s.rsps } ∧
    exec (.idx2lbl index) s = .next { s with rsps := ⟨.noMatch, .rtxt [0x65#8, 0x72#8, 0x72#8, 0x6F#8, 0x72#8]⟩ :: s.rsps })

/-- R127: for every index the two lookups fail together, exactly when it is not in 0..15; for an admissible table failing is the same as answering
the sentinel -1.0 or "error"; and the index CLASSIFY and MODE answer on failure, 255, is one for which both fail. -/
def Obligations.FailureSentinelsAreConsistent : Prop :=
  ∀ (s : State) (index : Word), s.cfg.Admissible →
    ∃ a b x y, exec (.idx2deg index) s = .next a ∧ a.rsps = x :: s.rsps ∧ exec (.idx2lbl index) s = .next b ∧ b.rsps = y :: s.rsps ∧
      (x.status = .noMatch ↔ 16 ≤ index.toNat) ∧ (y.status = .noMatch ↔ 16 ≤ index.toNat) ∧
      (x.payload = .r32 degFail ↔ 16 ≤ index.toNat) ∧ (y.payload = .rtxt lblFail ↔ 16 ≤ index.toNat) ∧
      (∀ (i : Instr) (t : State) v, (i = .classify index ∨ i = .mode 0#8) → exec i s = .next t → t.rsps = ⟨.noMatch, .r32 v⟩ :: s.rsps →
        16 ≤ v.toNat ∧ v = 255#32)

/-- R128: the same raw sample gives the same response for the life of the block, however many steps lie between. -/
def Obligations.ClassifyIsAFunctionForTheLifeOfTheBlock : Prop :=
  ∀ (n : Nat) (s t : State) (raw : Word), Runs n s t →
    ∃ r a b, exec (.classify raw) s = .next a ∧ a.rsps = r :: s.rsps ∧ exec (.classify raw) t = .next b ∧ b.rsps = r :: t.rsps

/-! ## Unit DN -/

/-- HNEW makes all sixteen buckets zero and the histogram valid, and nothing else (43_denoiser.md section 1). -/
def Obligations.HnewCreatesSixteenZeros : Prop :=
  ∀ s : State, exec (.hnew 0#8) s = .next { s with
    hists := #v[⟨Vector.replicate nLevels 0#32, true⟩], rsps := ⟨.ok, .r32 0#32⟩ :: s.rsps }

/-- RECORD draws one sample and answers (OK, 0); a sample that classifies increments its bucket modulo 2^32, one that does not changes nothing more
(43_denoiser.md section 2, decisions D20 and D21). The sample is the next one supplied, else the free value `adcSample` (log 8), for every value. -/
def Obligations.RecordCountsTheClassOfOneSample : Prop :=
  ∀ (s : State) (a : Word) (later : List Word) (n : Nat), s.hists[0].valid = true →
    (s.adc = a :: later ∧ n = s.adcDraws) ∨ (s.adc = [] ∧ a = adcSample s.adcDraws ∧ later = [] ∧ n = s.adcDraws + 1) →
    (∀ k : Fin nLevels, classify s.cfg a.toInt = some k →
      exec (.record 0#8) s = .next { s with
        adc := later, adcDraws := n,
        hists := s.hists.set 0 { s.hists[0] with
          buckets := s.hists[0].buckets.set k (BitVec.ofNat 32 ((s.hists[0].buckets[k].toNat + 1) % 2 ^ 32)) },
        rsps := ⟨.ok, .r32 0#32⟩ :: s.rsps }) ∧
    (classify s.cfg a.toInt = none →
      exec (.record 0#8) s = .next { s with adc := later, adcDraws := n, rsps := ⟨.ok, .r32 0#32⟩ :: s.rsps })

/-- R146: MODE answers the lowest index among the buckets that share the greatest count, never a bucket of zero, in index order whatever `SCAN` is;
of an all-zero histogram it answers 255 with NO_MATCH. -/
def Obligations.ModeIsTheLowestIndexOfTheGreatestCount : Prop :=
  ∀ s : State, s.hists[0].valid = true →
    (∀ k : Fin nLevels, s.hists[0].buckets[k] ≠ 0#32 → (∀ j : Fin nLevels, s.hists[0].buckets[j] ≤ s.hists[0].buckets[k]) →
      (∀ j : Fin nLevels, j < k → s.hists[0].buckets[j] < s.hists[0].buckets[k]) →
      exec (.mode 0#8) s = .next { s with rsps := ⟨.ok, .r32 (BitVec.ofNat 32 k.val)⟩ :: s.rsps }) ∧
    ((∀ k : Fin nLevels, s.hists[0].buckets[k] = 0#32) →
      exec (.mode 0#8) s = .next { s with rsps := ⟨.noMatch, .r32 0x000000FF#32⟩ :: s.rsps })

/-- The denoiser's scenario (43_denoiser.md section 3, the spec's derived rule R149): after HNEW, samples that classify as 0, 0, 1, 0 give the mode 0,
and any number of samples that all fail to classify give 255 with NO_MATCH. The samples are supplied ones (log 8). -/
def Obligations.MajorityVoteScenario : Prop :=
  (∀ (s : State) (a b c d : Word) later, s.adc = a :: b :: c :: d :: later →
    classify s.cfg a.toInt = some 0 → classify s.cfg b.toInt = some 0 → classify s.cfg c.toInt = some 1 →
    classify s.cfg d.toInt = some 0 → s.hphase = .idle →
    s.sched = List.replicate 6 .host →
    s.cmds = [(0x30000000#32, 0#32), (0x31000000#32, 0#32), (0x31000000#32, 0#32), (0x31000000#32, 0#32),
      (0x31000000#32, 0#32), (0x32000000#32, 0#32)] →
    ∃ t, Runs 6 s t ∧ t.hists[0].buckets = #v[3#32, 1#32, 0#32, 0#32, 0#32, 0#32, 0#32, 0#32, 0#32, 0#32, 0#32, 0#32, 0#32, 0#32, 0#32, 0#32] ∧
      t.rsps.head? = some ⟨.ok, .r32 0#32⟩) ∧
  (∀ (s : State) (samples : List Word), s.adc = samples → (∀ a ∈ samples, classify s.cfg a.toInt = none) → s.hphase = .idle →
    s.sched = List.replicate (samples.length + 2) .host →
    s.cmds = (0x30000000#32, 0#32) :: (List.replicate samples.length (0x31000000#32, 0#32) ++ [(0x32000000#32, 0#32)]) →
    ∃ t, Runs (samples.length + 2) s t ∧ t.rsps.head? = some ⟨.noMatch, .r32 0x000000FF#32⟩)

/-! ## Unit FD -/

/-- RXBYTE appends its byte at the tail of the queue and does nothing else (44_frame_decoder.md section 1). -/
def Obligations.RxbyteAppendsItsByte : Prop :=
  ∀ (s : State) (b : Byte), exec (.rxbyte b) s = .next { s with rxq := s.rxq ++ [b] }

/-- R162: the five steps of POLL. Empty queue: nothing consumed. Head not 0x42: that one byte consumed. Fewer than 32 bytes: nothing consumed. Else 32
bytes consumed, and the record of the fifteen big-endian fields answered exactly when the 16-bit field at bytes 30 and 31 is the sum of the first
thirty bytes modulo 65536; otherwise INTEGRITY. -/
def Obligations.PollTakesItsFiveSteps : Prop :=
  ∀ s : State,
    (s.rxq = [] → exec .poll s = .next { s with rsps := ⟨.notReady, .r32 0#32⟩ :: s.rsps }) ∧
    (∀ b rest, s.rxq = b :: rest → b ≠ 0x42#8 →
      exec .poll s = .next { s with rxq := rest, rsps := ⟨.notReady, .r32 0#32⟩ :: s.rsps }) ∧
    (∀ rest, s.rxq = 0x42#8 :: rest → s.rxq.length < 32 →
      exec .poll s = .next { s with rsps := ⟨.notReady, .r32 0#32⟩ :: s.rsps }) ∧
    (∀ (b : Vector Byte 32) rest, s.rxq = b.toList ++ rest → b[0] = 0x42#8 →
      (byteSum (b.toList.take 30) % 65536 ≠ b[30].toNat * 256 + b[31].toNat →
        exec .poll s = .next { s with rxq := rest, rsps := ⟨.integrity, .r32 0#32⟩ :: s.rsps }) ∧
      (byteSum (b.toList.take 30) % 65536 = b[30].toNat * 256 + b[31].toNat →
        exec .poll s = .next { s with
          rxq := rest,
          rsps := ⟨.ok, .rrec (Vector.ofFn fun j : Fin 15 =>
            BitVec.ofNat 16 ((b[2 + 2 * j.val]'(by omega)).toNat * 256 + (b[3 + 2 * j.val]'(by omega)).toNat))⟩ :: s.rsps }))

/-- One POLL consumes 0, 1 or 32 bytes from the head, answers once, and touches nothing else; 32 exactly when it answers OK or INTEGRITY
(44_frame_decoder.md section 3). -/
def Obligations.PollIsBounded : Prop :=
  ∀ s : State, ∃ n r, (n = 0 ∨ n = 1 ∨ n = 32) ∧ n ≤ s.rxq.length ∧
    exec .poll s = .next { s with rxq := s.rxq.drop n, rsps := r :: s.rsps } ∧
    (n = 32 ↔ r.status = .ok ∨ r.status = .integrity) ∧ (n ≠ 32 ↔ r.status = .notReady)

/-- To pass `g` garbage bytes before a good frame takes `g` POLLs, one byte each, and the next one answers the frame (44_frame_decoder.md section 3,
the spec's derived rule R165). -/
def Obligations.GarbageIsPassedOneBytePerPoll : Prop :=
  ∀ (s : State) (garbage : List Byte) b1 f later, s.rxq = garbage ++ goodFrame b1 f ++ later → (∀ b ∈ garbage, b ≠ 0x42#8) →
    s.hphase = .idle → s.sched = List.replicate (garbage.length + 1) .host →
    s.cmds = List.replicate (garbage.length + 1) (0x40000000#32, 0#32) →
    ∃ t, Runs (garbage.length + 1) s t ∧ t.rxq = later ∧
      t.rsps = ⟨.ok, .rrec (f.push (BitVec.ofNat 16 (byteSum (frameBody b1 f))))⟩ ::
        (List.replicate garbage.length ⟨.notReady, .r32 0#32⟩ ++ s.rsps)

/-- Round trip: fourteen field values laid out big-endian with a correct checksum are answered by POLL exactly, with the checksum as the fifteenth
(44_frame_decoder.md section 3, the spec's derived rule R168). -/
def Obligations.FrameRoundTrip : Prop :=
  ∀ (s : State) (b1 : Byte) (f : Vector Half 14) later, s.rxq = goodFrame b1 f ++ later →
    exec .poll s = .next { s with
      rxq := later, rsps := ⟨.ok, .rrec (f.push (BitVec.ofNat 16 (byteSum (frameBody b1 f))))⟩ :: s.rsps }

/-- The checksum law: the accumulator never wraps on thirty bytes, so a frame is answered with a record exactly when its last two bytes are the plain
sum, and one whose byte 30 is above 0x1D is answered INTEGRITY (44_frame_decoder.md section 3, the spec's derived rule R167). -/
def Obligations.ChecksumIsThePlainSum : Prop :=
  (∀ b : List Byte, b.length = 30 → byteSum b ≤ 7650 ∧ (sum16 b).toNat = byteSum b) ∧
  (∀ (s t : State) (b : Vector Byte 32) later, s.rxq = b.toList ++ later → b[0] = 0x42#8 → exec .poll s = .next t →
    ((∃ f, t.rsps = ⟨.ok, .rrec f⟩ :: s.rsps) ↔ byteSum (b.toList.take 30) = b[30].toNat * 256 + b[31].toNat)) ∧
  (∀ (s t : State) (b : Vector Byte 32) later, s.rxq = b.toList ++ later → b[0] = 0x42#8 → 0x1D#8 < b[30] → exec .poll s = .next t →
    t.rsps = ⟨.integrity, .r32 0#32⟩ :: s.rsps)

/-- Single-bit corruption of a good frame: a flip in bytes 1 to 31 is answered INTEGRITY with all 32 bytes gone, a flip in byte 0 consumes that byte and
is answered NOT_READY; no record either way (44_frame_decoder.md section 3, the spec's derived rule R169). -/
def Obligations.SingleBitCorruptionIsNeverARecord : Prop :=
  ∀ (s : State) (b1 : Byte) (f : Vector Half 14) later (n : Fin 32) (bit : Fin 8),
    s.rxq = flipBit (goodFrame b1 f) n.val bit ++ later →
    (n ≠ 0 → exec .poll s = .next { s with rxq := later, rsps := ⟨.integrity, .r32 0#32⟩ :: s.rsps }) ∧
    (n = 0 → exec .poll s = .next { s with rxq := s.rxq.drop 1, rsps := ⟨.notReady, .r32 0#32⟩ :: s.rsps })

/-! ## The whole machine -/

/-- What reset leaves: counters zero and unarmed, no window started, no histogram valid, no INIT, an empty queue, admissible tables (10_state.md section
13 and 70_reset_and_hazards.md section 1; the values are the spec's decision D6, the admissible tables log 3). That no response is logged yet is
a value of the model's own field `rsps` (log 9, log 27). Nothing is said of the time bases. -/
def Obligations.ResetState : Prop :=
  (∀ i : Fin nPC, State.reset.pcs[i] = ⟨0#32, 0#32, 0#32, false⟩) ∧
  (∀ w : Fin nWin, State.reset.wins[w].started = false) ∧ (∀ h : Fin nHist, State.reset.hists[h].valid = false) ∧
  State.reset.hphase = .idle ∧ State.reset.rxq = [] ∧ State.reset.rsps = [] ∧ State.reset.cfg.Admissible

/-- The invariant holds at reset (10_state.md section 13; log 3). -/
def Obligations.InvariantHoldsAtReset : Prop := State.reset.Inv

/-- Every step keeps the invariant: admissible tables, an armed counter during INIT's second wait, lawful responses (10_state.md sections 4, 6, 8;
60_exceptions.md section 1). -/
def Obligations.EveryStepKeepsTheInvariant : Prop :=
  ∀ s t : State, s.Inv → step s = .next t → t.Inv

/-- Each one-bit state element is cleared by no step (10_state.md section 10, the spec's derived rule R25). -/
def Obligations.GuardBitsAreNeverCleared : Prop :=
  ∀ s t : State, step s = .next t →
    (∀ i : Fin nPC, s.pcs[i].armed = true → t.pcs[i].armed = true) ∧
    (∀ w : Fin nWin, s.wins[w].started = true → t.wins[w].started = true) ∧
    (∀ h : Fin nHist, s.hists[h].valid = true → t.hists[h].valid = true)

/-- Only the TIME agent moves a time base (10_state.md section 3, 40_pulse_counter.md section 1), and no step writes the tables (10_state.md section
6). -/
def Obligations.OnlyAdvanceMovesTimeAndNothingMovesTheTables : Prop :=
  ∀ s t : State, step s = .next t →
    t.cfg = s.cfg ∧
    (t.tbEdge ≠ s.tbEdge → ∃ n rest, s.sched = .event 0x20#8 n :: rest) ∧
    (t.tbMs ≠ s.tbMs → ∃ n rest, s.sched = .event 0x21#8 n :: rest)

/-- Single writer per field: `let` is written by EDGE of its counter alone; `count` by that EDGE, which adds one, and by INIT's last phase, which clears;
`dbw` by INIT's first phase; `armed` by its second (10_state.md section 4, 20_memory.md section 5). -/
def Obligations.CounterFieldsHaveTheirOneWriter : Prop :=
  ∀ (s t : State) (i : Fin nPC), step s = .next t →
    (t.pcs[i].last ≠ s.pcs[i].last → ∃ ep rest, s.sched = .event (edgeCode i) ep :: rest) ∧
    (t.pcs[i].count ≠ s.pcs[i].count →
      (t.pcs[i].count = s.pcs[i].count + 1#32 ∧ ∃ ep rest, s.sched = .event (edgeCode i) ep :: rest) ∨
      (t.pcs[i].count = 0#32 ∧ s.hphase = .settle2 ∧ s.hsel = i ∧ ∃ rest, s.sched = .host :: rest)) ∧
    (t.pcs[i].dbw ≠ s.pcs[i].dbw → s.hphase = .idle ∧ t.hphase = .settle1 ∧ t.hsel = i ∧ ∃ rest, s.sched = .host :: rest) ∧
    (t.pcs[i].armed ≠ s.pcs[i].armed → s.hphase = .settle1 ∧ s.hsel = i ∧ ∃ rest, s.sched = .host :: rest)

/-- The byte queue keeps order: a step leaves it, appends one byte on an event, or removes 0, 1 or 32 bytes from the head on the host's turn
(20_memory.md sections 1 and 5); and no event touches a window or a histogram (43_denoiser.md, 60_exceptions.md section 3). -/
def Obligations.QueueOrderAndEventsStayInTheirUnits : Prop :=
  ∀ s t : State, step s = .next t →
    (∀ rest, s.sched = .host :: rest → ∃ n, (n = 0 ∨ n = 1 ∨ n = 32) ∧ t.rxq = s.rxq.drop n) ∧
    (∀ ev ep rest, s.sched = .event ev ep :: rest →
      (t.rxq = s.rxq ∨ ∃ b, ev = 0x30#8 ∧ t.rxq = s.rxq ++ [b]) ∧
      t.wins = s.wins ∧ t.hists = s.hists ∧ t.rsps = s.rsps ∧ t.cmds = s.cmds ∧ t.adc = s.adc ∧ t.adcDraws = s.adcDraws)

/-- Every well-formed command but INIT answers exactly once, with a status of its row in the outcome table, and INIT's own step answers nothing
(30_encoding.md section 2, 60_exceptions.md section 1). -/
def Obligations.EachCommandAnswersOnceWithAStatusOfItsRow : Prop :=
  ∀ (s t : State) (i : Instr), i.WellFormed → exec i s = .next t →
    match i with
    | .init _ _ | .edge _ | .advance _ _ | .rxbyte _ => t.rsps = s.rsps
    | .read _ | .start _ | .hnew _ => ∃ r, t.rsps = r :: s.rsps ∧ r.status = .ok
    | .quant _ => ∃ r, t.rsps = r :: s.rsps ∧ (r.status = .ok ∨ r.status = .notReady ∨ r.status = .precond)
    | .classify _ | .idx2deg _ | .idx2lbl _ => ∃ r, t.rsps = r :: s.rsps ∧ (r.status = .ok ∨ r.status = .noMatch)
    | .record _ => ∃ r, t.rsps = r :: s.rsps ∧ (r.status = .ok ∨ r.status = .precond)
    | .mode _ => ∃ r, t.rsps = r :: s.rsps ∧ (r.status = .ok ∨ r.status = .noMatch ∨ r.status = .precond)
    | .poll => ∃ r, t.rsps = r :: s.rsps ∧ (r.status = .ok ∨ r.status = .notReady ∨ r.status = .integrity)

/-- The queries are repeatable: issued again with no step between, READ, START, QUANT, CLASSIFY, the lookups, HNEW and MODE answer the same and leave
the same state but for the answer itself (20_memory.md section 4). -/
def Obligations.QueriesAreIdempotent : Prop :=
  ∀ (s t u : State) (i : Instr),
    (match i with
      | .read _ | .start _ | .quant _ | .classify _ | .idx2deg _ | .idx2lbl _ | .hnew _ | .mode _ => True
      | _ => False) →
    exec i s = .next t → exec i t = .next u →
    ∃ r, t.rsps = r :: s.rsps ∧ u = { t with rsps := r :: t.rsps }

/-- Primary points first: with an admissible table, when CLASSIFY answers an intercardinal level, no primary level matches the sample
(42_classifier.md sections 1, 2 and 4, decision D18; the groups are the model's parameter, log 29). -/
def Obligations.PrimaryPointsAreFoundFirst : Prop :=
  ∀ (s t : State) (raw : Word) (k : Fin nLevels), s.cfg.Admissible → exec (.classify raw) s = .next t →
    t.rsps = ⟨.ok, .r32 (BitVec.ofNat 32 k.val)⟩ :: s.rsps → s.cfg.groups[k] = .intercardinal →
    ∀ j : Fin nLevels, s.cfg.groups[j] = .primary → 10 < (raw.toInt - s.cfg.cal[j].ref).natAbs
end

