-- ==== Sys2Proof/Laws/State.lean ====
section
/-! SUPPORT. One lemma per field per update of State, and the accessors of the instances after each update. -/

namespace Sys2Proof.Machine

open Config

variable (s : State)

@[simp] theorem State.setCounter_pcs (i : Fin nPC) (c : PulseCounter) : (s.setCounter i c).pcs = s.pcs.set i c := rfl
@[simp] theorem State.setCounter_wins (i : Fin nPC) (c : PulseCounter) : (s.setCounter i c).wins = s.wins := rfl
@[simp] theorem State.setCounter_hists (i : Fin nPC) (c : PulseCounter) : (s.setCounter i c).hists = s.hists := rfl
@[simp] theorem State.setCounter_tbEdge (i : Fin nPC) (c : PulseCounter) : (s.setCounter i c).tbEdge = s.tbEdge := rfl
@[simp] theorem State.setCounter_tbMs (i : Fin nPC) (c : PulseCounter) : (s.setCounter i c).tbMs = s.tbMs := rfl
@[simp] theorem State.setCounter_hphase (i : Fin nPC) (c : PulseCounter) : (s.setCounter i c).hphase = s.hphase := rfl
@[simp] theorem State.setCounter_hsel (i : Fin nPC) (c : PulseCounter) : (s.setCounter i c).hsel = s.hsel := rfl
@[simp] theorem State.setCounter_ht0 (i : Fin nPC) (c : PulseCounter) : (s.setCounter i c).ht0 = s.ht0 := rfl
@[simp] theorem State.setCounter_rxq (i : Fin nPC) (c : PulseCounter) : (s.setCounter i c).rxq = s.rxq := rfl
@[simp] theorem State.setCounter_cfg (i : Fin nPC) (c : PulseCounter) : (s.setCounter i c).cfg = s.cfg := rfl
@[simp] theorem State.setCounter_cmds (i : Fin nPC) (c : PulseCounter) : (s.setCounter i c).cmds = s.cmds := rfl
@[simp] theorem State.setCounter_sched (i : Fin nPC) (c : PulseCounter) : (s.setCounter i c).sched = s.sched := rfl
@[simp] theorem State.setCounter_adc (i : Fin nPC) (c : PulseCounter) : (s.setCounter i c).adc = s.adc := rfl
@[simp] theorem State.setCounter_adcDraws (i : Fin nPC) (c : PulseCounter) : (s.setCounter i c).adcDraws = s.adcDraws := rfl
@[simp] theorem State.setCounter_rsps (i : Fin nPC) (c : PulseCounter) : (s.setCounter i c).rsps = s.rsps := rfl

@[simp] theorem State.setWindow_pcs (w : Fin nWin) (x : Window) : (s.setWindow w x).pcs = s.pcs := rfl
@[simp] theorem State.setWindow_wins (w : Fin nWin) (x : Window) : (s.setWindow w x).wins = s.wins.set w x := rfl
@[simp] theorem State.setWindow_hists (w : Fin nWin) (x : Window) : (s.setWindow w x).hists = s.hists := rfl
@[simp] theorem State.setWindow_tbEdge (w : Fin nWin) (x : Window) : (s.setWindow w x).tbEdge = s.tbEdge := rfl
@[simp] theorem State.setWindow_tbMs (w : Fin nWin) (x : Window) : (s.setWindow w x).tbMs = s.tbMs := rfl
@[simp] theorem State.setWindow_hphase (w : Fin nWin) (x : Window) : (s.setWindow w x).hphase = s.hphase := rfl
@[simp] theorem State.setWindow_hsel (w : Fin nWin) (x : Window) : (s.setWindow w x).hsel = s.hsel := rfl
@[simp] theorem State.setWindow_ht0 (w : Fin nWin) (x : Window) : (s.setWindow w x).ht0 = s.ht0 := rfl
@[simp] theorem State.setWindow_rxq (w : Fin nWin) (x : Window) : (s.setWindow w x).rxq = s.rxq := rfl
@[simp] theorem State.setWindow_cfg (w : Fin nWin) (x : Window) : (s.setWindow w x).cfg = s.cfg := rfl
@[simp] theorem State.setWindow_cmds (w : Fin nWin) (x : Window) : (s.setWindow w x).cmds = s.cmds := rfl
@[simp] theorem State.setWindow_sched (w : Fin nWin) (x : Window) : (s.setWindow w x).sched = s.sched := rfl
@[simp] theorem State.setWindow_adc (w : Fin nWin) (x : Window) : (s.setWindow w x).adc = s.adc := rfl
@[simp] theorem State.setWindow_adcDraws (w : Fin nWin) (x : Window) : (s.setWindow w x).adcDraws = s.adcDraws := rfl
@[simp] theorem State.setWindow_rsps (w : Fin nWin) (x : Window) : (s.setWindow w x).rsps = s.rsps := rfl

@[simp] theorem State.setHistogram_pcs (h : Fin nHist) (x : Histogram) : (s.setHistogram h x).pcs = s.pcs := rfl
@[simp] theorem State.setHistogram_wins (h : Fin nHist) (x : Histogram) : (s.setHistogram h x).wins = s.wins := rfl
@[simp] theorem State.setHistogram_hists (h : Fin nHist) (x : Histogram) : (s.setHistogram h x).hists = s.hists.set h x := rfl
@[simp] theorem State.setHistogram_tbEdge (h : Fin nHist) (x : Histogram) : (s.setHistogram h x).tbEdge = s.tbEdge := rfl
@[simp] theorem State.setHistogram_tbMs (h : Fin nHist) (x : Histogram) : (s.setHistogram h x).tbMs = s.tbMs := rfl
@[simp] theorem State.setHistogram_hphase (h : Fin nHist) (x : Histogram) : (s.setHistogram h x).hphase = s.hphase := rfl
@[simp] theorem State.setHistogram_hsel (h : Fin nHist) (x : Histogram) : (s.setHistogram h x).hsel = s.hsel := rfl
@[simp] theorem State.setHistogram_ht0 (h : Fin nHist) (x : Histogram) : (s.setHistogram h x).ht0 = s.ht0 := rfl
@[simp] theorem State.setHistogram_rxq (h : Fin nHist) (x : Histogram) : (s.setHistogram h x).rxq = s.rxq := rfl
@[simp] theorem State.setHistogram_cfg (h : Fin nHist) (x : Histogram) : (s.setHistogram h x).cfg = s.cfg := rfl
@[simp] theorem State.setHistogram_cmds (h : Fin nHist) (x : Histogram) : (s.setHistogram h x).cmds = s.cmds := rfl
@[simp] theorem State.setHistogram_sched (h : Fin nHist) (x : Histogram) : (s.setHistogram h x).sched = s.sched := rfl
@[simp] theorem State.setHistogram_adc (h : Fin nHist) (x : Histogram) : (s.setHistogram h x).adc = s.adc := rfl
@[simp] theorem State.setHistogram_adcDraws (h : Fin nHist) (x : Histogram) : (s.setHistogram h x).adcDraws = s.adcDraws := rfl
@[simp] theorem State.setHistogram_rsps (h : Fin nHist) (x : Histogram) : (s.setHistogram h x).rsps = s.rsps := rfl

@[simp] theorem State.setSequencer_pcs (p : HPhase) (i : Fin nPC) (t0 : Time) : (s.setSequencer p i t0).pcs = s.pcs := rfl
@[simp] theorem State.setSequencer_wins (p : HPhase) (i : Fin nPC) (t0 : Time) : (s.setSequencer p i t0).wins = s.wins := rfl
@[simp] theorem State.setSequencer_hists (p : HPhase) (i : Fin nPC) (t0 : Time) : (s.setSequencer p i t0).hists = s.hists := rfl
@[simp] theorem State.setSequencer_tbEdge (p : HPhase) (i : Fin nPC) (t0 : Time) : (s.setSequencer p i t0).tbEdge = s.tbEdge := rfl
@[simp] theorem State.setSequencer_tbMs (p : HPhase) (i : Fin nPC) (t0 : Time) : (s.setSequencer p i t0).tbMs = s.tbMs := rfl
@[simp] theorem State.setSequencer_hphase (p : HPhase) (i : Fin nPC) (t0 : Time) : (s.setSequencer p i t0).hphase = p := rfl
@[simp] theorem State.setSequencer_hsel (p : HPhase) (i : Fin nPC) (t0 : Time) : (s.setSequencer p i t0).hsel = i := rfl
@[simp] theorem State.setSequencer_ht0 (p : HPhase) (i : Fin nPC) (t0 : Time) : (s.setSequencer p i t0).ht0 = t0 := rfl
@[simp] theorem State.setSequencer_rxq (p : HPhase) (i : Fin nPC) (t0 : Time) : (s.setSequencer p i t0).rxq = s.rxq := rfl
@[simp] theorem State.setSequencer_cfg (p : HPhase) (i : Fin nPC) (t0 : Time) : (s.setSequencer p i t0).cfg = s.cfg := rfl
@[simp] theorem State.setSequencer_cmds (p : HPhase) (i : Fin nPC) (t0 : Time) : (s.setSequencer p i t0).cmds = s.cmds := rfl
@[simp] theorem State.setSequencer_sched (p : HPhase) (i : Fin nPC) (t0 : Time) : (s.setSequencer p i t0).sched = s.sched := rfl
@[simp] theorem State.setSequencer_adc (p : HPhase) (i : Fin nPC) (t0 : Time) : (s.setSequencer p i t0).adc = s.adc := rfl
@[simp] theorem State.setSequencer_adcDraws (p : HPhase) (i : Fin nPC) (t0 : Time) : (s.setSequencer p i t0).adcDraws = s.adcDraws := rfl
@[simp] theorem State.setSequencer_rsps (p : HPhase) (i : Fin nPC) (t0 : Time) : (s.setSequencer p i t0).rsps = s.rsps := rfl

@[simp] theorem State.setRxq_pcs (q : List Byte) : (s.setRxq q).pcs = s.pcs := rfl
@[simp] theorem State.setRxq_wins (q : List Byte) : (s.setRxq q).wins = s.wins := rfl
@[simp] theorem State.setRxq_hists (q : List Byte) : (s.setRxq q).hists = s.hists := rfl
@[simp] theorem State.setRxq_tbEdge (q : List Byte) : (s.setRxq q).tbEdge = s.tbEdge := rfl
@[simp] theorem State.setRxq_tbMs (q : List Byte) : (s.setRxq q).tbMs = s.tbMs := rfl
@[simp] theorem State.setRxq_hphase (q : List Byte) : (s.setRxq q).hphase = s.hphase := rfl
@[simp] theorem State.setRxq_hsel (q : List Byte) : (s.setRxq q).hsel = s.hsel := rfl
@[simp] theorem State.setRxq_ht0 (q : List Byte) : (s.setRxq q).ht0 = s.ht0 := rfl
@[simp] theorem State.setRxq_rxq (q : List Byte) : (s.setRxq q).rxq = q := rfl
@[simp] theorem State.setRxq_cfg (q : List Byte) : (s.setRxq q).cfg = s.cfg := rfl
@[simp] theorem State.setRxq_cmds (q : List Byte) : (s.setRxq q).cmds = s.cmds := rfl
@[simp] theorem State.setRxq_sched (q : List Byte) : (s.setRxq q).sched = s.sched := rfl
@[simp] theorem State.setRxq_adc (q : List Byte) : (s.setRxq q).adc = s.adc := rfl
@[simp] theorem State.setRxq_adcDraws (q : List Byte) : (s.setRxq q).adcDraws = s.adcDraws := rfl
@[simp] theorem State.setRxq_rsps (q : List Byte) : (s.setRxq q).rsps = s.rsps := rfl

@[simp] theorem State.setCmds_pcs (l : List (Word × Word)) : (s.setCmds l).pcs = s.pcs := rfl
@[simp] theorem State.setCmds_wins (l : List (Word × Word)) : (s.setCmds l).wins = s.wins := rfl
@[simp] theorem State.setCmds_hists (l : List (Word × Word)) : (s.setCmds l).hists = s.hists := rfl
@[simp] theorem State.setCmds_tbEdge (l : List (Word × Word)) : (s.setCmds l).tbEdge = s.tbEdge := rfl
@[simp] theorem State.setCmds_tbMs (l : List (Word × Word)) : (s.setCmds l).tbMs = s.tbMs := rfl
@[simp] theorem State.setCmds_hphase (l : List (Word × Word)) : (s.setCmds l).hphase = s.hphase := rfl
@[simp] theorem State.setCmds_hsel (l : List (Word × Word)) : (s.setCmds l).hsel = s.hsel := rfl
@[simp] theorem State.setCmds_ht0 (l : List (Word × Word)) : (s.setCmds l).ht0 = s.ht0 := rfl
@[simp] theorem State.setCmds_rxq (l : List (Word × Word)) : (s.setCmds l).rxq = s.rxq := rfl
@[simp] theorem State.setCmds_cfg (l : List (Word × Word)) : (s.setCmds l).cfg = s.cfg := rfl
@[simp] theorem State.setCmds_cmds (l : List (Word × Word)) : (s.setCmds l).cmds = l := rfl
@[simp] theorem State.setCmds_sched (l : List (Word × Word)) : (s.setCmds l).sched = s.sched := rfl
@[simp] theorem State.setCmds_adc (l : List (Word × Word)) : (s.setCmds l).adc = s.adc := rfl
@[simp] theorem State.setCmds_adcDraws (l : List (Word × Word)) : (s.setCmds l).adcDraws = s.adcDraws := rfl
@[simp] theorem State.setCmds_rsps (l : List (Word × Word)) : (s.setCmds l).rsps = s.rsps := rfl

@[simp] theorem State.setSched_pcs (l : List Turn) : (s.setSched l).pcs = s.pcs := rfl
@[simp] theorem State.setSched_wins (l : List Turn) : (s.setSched l).wins = s.wins := rfl
@[simp] theorem State.setSched_hists (l : List Turn) : (s.setSched l).hists = s.hists := rfl
@[simp] theorem State.setSched_tbEdge (l : List Turn) : (s.setSched l).tbEdge = s.tbEdge := rfl
@[simp] theorem State.setSched_tbMs (l : List Turn) : (s.setSched l).tbMs = s.tbMs := rfl
@[simp] theorem State.setSched_hphase (l : List Turn) : (s.setSched l).hphase = s.hphase := rfl
@[simp] theorem State.setSched_hsel (l : List Turn) : (s.setSched l).hsel = s.hsel := rfl
@[simp] theorem State.setSched_ht0 (l : List Turn) : (s.setSched l).ht0 = s.ht0 := rfl
@[simp] theorem State.setSched_rxq (l : List Turn) : (s.setSched l).rxq = s.rxq := rfl
@[simp] theorem State.setSched_cfg (l : List Turn) : (s.setSched l).cfg = s.cfg := rfl
@[simp] theorem State.setSched_cmds (l : List Turn) : (s.setSched l).cmds = s.cmds := rfl
@[simp] theorem State.setSched_sched (l : List Turn) : (s.setSched l).sched = l := rfl
@[simp] theorem State.setSched_adc (l : List Turn) : (s.setSched l).adc = s.adc := rfl
@[simp] theorem State.setSched_adcDraws (l : List Turn) : (s.setSched l).adcDraws = s.adcDraws := rfl
@[simp] theorem State.setSched_rsps (l : List Turn) : (s.setSched l).rsps = s.rsps := rfl

@[simp] theorem State.setAdc_pcs (l : List Word) (n : Nat) : (s.setAdc l n).pcs = s.pcs := rfl
@[simp] theorem State.setAdc_wins (l : List Word) (n : Nat) : (s.setAdc l n).wins = s.wins := rfl
@[simp] theorem State.setAdc_hists (l : List Word) (n : Nat) : (s.setAdc l n).hists = s.hists := rfl
@[simp] theorem State.setAdc_tbEdge (l : List Word) (n : Nat) : (s.setAdc l n).tbEdge = s.tbEdge := rfl
@[simp] theorem State.setAdc_tbMs (l : List Word) (n : Nat) : (s.setAdc l n).tbMs = s.tbMs := rfl
@[simp] theorem State.setAdc_hphase (l : List Word) (n : Nat) : (s.setAdc l n).hphase = s.hphase := rfl
@[simp] theorem State.setAdc_hsel (l : List Word) (n : Nat) : (s.setAdc l n).hsel = s.hsel := rfl
@[simp] theorem State.setAdc_ht0 (l : List Word) (n : Nat) : (s.setAdc l n).ht0 = s.ht0 := rfl
@[simp] theorem State.setAdc_rxq (l : List Word) (n : Nat) : (s.setAdc l n).rxq = s.rxq := rfl
@[simp] theorem State.setAdc_cfg (l : List Word) (n : Nat) : (s.setAdc l n).cfg = s.cfg := rfl
@[simp] theorem State.setAdc_cmds (l : List Word) (n : Nat) : (s.setAdc l n).cmds = s.cmds := rfl
@[simp] theorem State.setAdc_sched (l : List Word) (n : Nat) : (s.setAdc l n).sched = s.sched := rfl
@[simp] theorem State.setAdc_adc (l : List Word) (n : Nat) : (s.setAdc l n).adc = l := rfl
@[simp] theorem State.setAdc_adcDraws (l : List Word) (n : Nat) : (s.setAdc l n).adcDraws = n := rfl
@[simp] theorem State.setAdc_rsps (l : List Word) (n : Nat) : (s.setAdc l n).rsps = s.rsps := rfl

@[simp] theorem State.push_pcs (r : Response) : (s.push r).pcs = s.pcs := rfl
@[simp] theorem State.push_wins (r : Response) : (s.push r).wins = s.wins := rfl
@[simp] theorem State.push_hists (r : Response) : (s.push r).hists = s.hists := rfl
@[simp] theorem State.push_tbEdge (r : Response) : (s.push r).tbEdge = s.tbEdge := rfl
@[simp] theorem State.push_tbMs (r : Response) : (s.push r).tbMs = s.tbMs := rfl
@[simp] theorem State.push_hphase (r : Response) : (s.push r).hphase = s.hphase := rfl
@[simp] theorem State.push_hsel (r : Response) : (s.push r).hsel = s.hsel := rfl
@[simp] theorem State.push_ht0 (r : Response) : (s.push r).ht0 = s.ht0 := rfl
@[simp] theorem State.push_rxq (r : Response) : (s.push r).rxq = s.rxq := rfl
@[simp] theorem State.push_cfg (r : Response) : (s.push r).cfg = s.cfg := rfl
@[simp] theorem State.push_cmds (r : Response) : (s.push r).cmds = s.cmds := rfl
@[simp] theorem State.push_sched (r : Response) : (s.push r).sched = s.sched := rfl
@[simp] theorem State.push_adc (r : Response) : (s.push r).adc = s.adc := rfl
@[simp] theorem State.push_adcDraws (r : Response) : (s.push r).adcDraws = s.adcDraws := rfl
@[simp] theorem State.push_rsps (r : Response) : (s.push r).rsps = r :: s.rsps := rfl

@[simp] theorem State.setTimeBase_pcs (b : TimeBase) (t : Time) : (s.setTimeBase b t).pcs = s.pcs := by cases b <;> rfl
@[simp] theorem State.setTimeBase_wins (b : TimeBase) (t : Time) : (s.setTimeBase b t).wins = s.wins := by cases b <;> rfl
@[simp] theorem State.setTimeBase_hists (b : TimeBase) (t : Time) : (s.setTimeBase b t).hists = s.hists := by cases b <;> rfl
@[simp] theorem State.setTimeBase_hphase (b : TimeBase) (t : Time) : (s.setTimeBase b t).hphase = s.hphase := by cases b <;> rfl
@[simp] theorem State.setTimeBase_hsel (b : TimeBase) (t : Time) : (s.setTimeBase b t).hsel = s.hsel := by cases b <;> rfl
@[simp] theorem State.setTimeBase_ht0 (b : TimeBase) (t : Time) : (s.setTimeBase b t).ht0 = s.ht0 := by cases b <;> rfl
@[simp] theorem State.setTimeBase_rxq (b : TimeBase) (t : Time) : (s.setTimeBase b t).rxq = s.rxq := by cases b <;> rfl
@[simp] theorem State.setTimeBase_cfg (b : TimeBase) (t : Time) : (s.setTimeBase b t).cfg = s.cfg := by cases b <;> rfl
@[simp] theorem State.setTimeBase_cmds (b : TimeBase) (t : Time) : (s.setTimeBase b t).cmds = s.cmds := by cases b <;> rfl
@[simp] theorem State.setTimeBase_sched (b : TimeBase) (t : Time) : (s.setTimeBase b t).sched = s.sched := by cases b <;> rfl
@[simp] theorem State.setTimeBase_adc (b : TimeBase) (t : Time) : (s.setTimeBase b t).adc = s.adc := by cases b <;> rfl
@[simp] theorem State.setTimeBase_adcDraws (b : TimeBase) (t : Time) : (s.setTimeBase b t).adcDraws = s.adcDraws := by cases b <;> rfl
@[simp] theorem State.setTimeBase_rsps (b : TimeBase) (t : Time) : (s.setTimeBase b t).rsps = s.rsps := by cases b <;> rfl

@[simp] theorem State.setTimeBase_edge_tbEdge (t : Time) : (s.setTimeBase .edge t).tbEdge = t := rfl
@[simp] theorem State.setTimeBase_edge_tbMs (t : Time) : (s.setTimeBase .edge t).tbMs = s.tbMs := rfl
@[simp] theorem State.setTimeBase_ms_tbEdge (t : Time) : (s.setTimeBase .ms t).tbEdge = s.tbEdge := rfl
@[simp] theorem State.setTimeBase_ms_tbMs (t : Time) : (s.setTimeBase .ms t).tbMs = t := rfl
@[simp] theorem State.timeBase_edge : s.timeBase .edge = s.tbEdge := rfl
@[simp] theorem State.timeBase_ms : s.timeBase .ms = s.tbMs := rfl

@[simp] theorem State.counter_setWindow (w2 : Fin nWin) (x : Window) (i : Fin nPC) : (s.setWindow w2 x).counter i = s.counter i := rfl
@[simp] theorem State.counter_setHistogram (h2 : Fin nHist) (x : Histogram) (i : Fin nPC) : (s.setHistogram h2 x).counter i = s.counter i := rfl
@[simp] theorem State.counter_setSequencer (p : HPhase) (i2 : Fin nPC) (t0 : Time) (i : Fin nPC) : (s.setSequencer p i2 t0).counter i = s.counter i := rfl
@[simp] theorem State.counter_setRxq (q : List Byte) (i : Fin nPC) : (s.setRxq q).counter i = s.counter i := rfl
@[simp] theorem State.counter_setCmds (l : List (Word × Word)) (i : Fin nPC) : (s.setCmds l).counter i = s.counter i := rfl
@[simp] theorem State.counter_setSched (l : List Turn) (i : Fin nPC) : (s.setSched l).counter i = s.counter i := rfl
@[simp] theorem State.counter_setAdc (l : List Word) (n : Nat) (i : Fin nPC) : (s.setAdc l n).counter i = s.counter i := rfl
@[simp] theorem State.counter_push (r : Response) (i : Fin nPC) : (s.push r).counter i = s.counter i := rfl
@[simp] theorem State.counter_setTimeBase (b : TimeBase) (t : Time) (i : Fin nPC) : (s.setTimeBase b t).counter i = s.counter i := by cases b <;> rfl

@[simp] theorem State.window_setCounter (i2 : Fin nPC) (c : PulseCounter) (w : Fin nWin) : (s.setCounter i2 c).window w = s.window w := rfl
@[simp] theorem State.window_setHistogram (h2 : Fin nHist) (x : Histogram) (w : Fin nWin) : (s.setHistogram h2 x).window w = s.window w := rfl
@[simp] theorem State.window_setSequencer (p : HPhase) (i2 : Fin nPC) (t0 : Time) (w : Fin nWin) : (s.setSequencer p i2 t0).window w = s.window w := rfl
@[simp] theorem State.window_setRxq (q : List Byte) (w : Fin nWin) : (s.setRxq q).window w = s.window w := rfl
@[simp] theorem State.window_setCmds (l : List (Word × Word)) (w : Fin nWin) : (s.setCmds l).window w = s.window w := rfl
@[simp] theorem State.window_setSched (l : List Turn) (w : Fin nWin) : (s.setSched l).window w = s.window w := rfl
@[simp] theorem State.window_setAdc (l : List Word) (n : Nat) (w : Fin nWin) : (s.setAdc l n).window w = s.window w := rfl
@[simp] theorem State.window_push (r : Response) (w : Fin nWin) : (s.push r).window w = s.window w := rfl
@[simp] theorem State.window_setTimeBase (b : TimeBase) (t : Time) (w : Fin nWin) : (s.setTimeBase b t).window w = s.window w := by cases b <;> rfl

@[simp] theorem State.histogram_setCounter (i2 : Fin nPC) (c : PulseCounter) (h : Fin nHist) : (s.setCounter i2 c).histogram h = s.histogram h := rfl
@[simp] theorem State.histogram_setWindow (w2 : Fin nWin) (x : Window) (h : Fin nHist) : (s.setWindow w2 x).histogram h = s.histogram h := rfl
@[simp] theorem State.histogram_setSequencer (p : HPhase) (i2 : Fin nPC) (t0 : Time) (h : Fin nHist) : (s.setSequencer p i2 t0).histogram h = s.histogram h := rfl
@[simp] theorem State.histogram_setRxq (q : List Byte) (h : Fin nHist) : (s.setRxq q).histogram h = s.histogram h := rfl
@[simp] theorem State.histogram_setCmds (l : List (Word × Word)) (h : Fin nHist) : (s.setCmds l).histogram h = s.histogram h := rfl
@[simp] theorem State.histogram_setSched (l : List Turn) (h : Fin nHist) : (s.setSched l).histogram h = s.histogram h := rfl
@[simp] theorem State.histogram_setAdc (l : List Word) (n : Nat) (h : Fin nHist) : (s.setAdc l n).histogram h = s.histogram h := rfl
@[simp] theorem State.histogram_push (r : Response) (h : Fin nHist) : (s.push r).histogram h = s.histogram h := rfl
@[simp] theorem State.histogram_setTimeBase (b : TimeBase) (t : Time) (h : Fin nHist) : (s.setTimeBase b t).histogram h = s.histogram h := by cases b <;> rfl

/-- A written counter reads as written. -/
@[simp] theorem State.counter_setCounter_self (i : Fin nPC) (c : PulseCounter) : (s.setCounter i c).counter i = c := by
  simp [State.counter, State.setCounter]

/-- Writing one counter leaves the others (R17). -/
theorem State.counter_setCounter_ne (i j : Fin nPC) (c : PulseCounter) (h : i ≠ j) :
    (s.setCounter i c).counter j = s.counter j := by
  simp [State.counter, State.setCounter, Fin.val_ne_of_ne h]

/-- A written window reads as written. -/
@[simp] theorem State.window_setWindow_self (w : Fin nWin) (x : Window) : (s.setWindow w x).window w = x := by
  simp [State.window, State.setWindow]

/-- Writing one window leaves the others (R19). -/
theorem State.window_setWindow_ne (w v : Fin nWin) (x : Window) (h : w ≠ v) :
    (s.setWindow w x).window v = s.window v := by
  simp [State.window, State.setWindow, Fin.val_ne_of_ne h]

/-- A written histogram reads as written. -/
@[simp] theorem State.histogram_setHistogram_self (h : Fin nHist) (x : Histogram) :
    (s.setHistogram h x).histogram h = x := by
  simp [State.histogram, State.setHistogram]

/-- Writing a counter twice is writing it once. -/
@[simp] theorem State.setCounter_setCounter (i : Fin nPC) (c d : PulseCounter) :
    (s.setCounter i c).setCounter i d = s.setCounter i d := by
  simp [State.setCounter]

/-- Writing back what is there changes nothing. -/
@[simp] theorem State.setCounter_counter (i : Fin nPC) : s.setCounter i (s.counter i) = s := by
  simp [State.counter, State.setCounter]

/-- Two states with the same fields are one state. -/
theorem State.ext_fields {s t : State} (h1 : s.pcs = t.pcs) (h2 : s.wins = t.wins) (h3 : s.hists = t.hists)
    (h4 : s.tbEdge = t.tbEdge) (h5 : s.tbMs = t.tbMs) (h6 : s.hphase = t.hphase) (h7 : s.hsel = t.hsel)
    (h8 : s.ht0 = t.ht0) (h9 : s.rxq = t.rxq) (h10 : s.cfg = t.cfg) (h11 : s.cmds = t.cmds) (h12 : s.sched = t.sched)
    (h13 : s.adc = t.adc) (h14 : s.adcDraws = t.adcDraws) (h15 : s.rsps = t.rsps) : s = t := by
  cases s; cases t; simp_all

end Sys2Proof.Machine
end

