-- ==== Sys2Proof/Laws/Ops.lean ====
section
/-! SUPPORT. What the shared operations can do, once: responding, raising, the selectors and guards, the byte queue, the ADC. -/

namespace Sys2Proof.Machine

open Config

/-- Responding always ends in a next state, with one response in front. -/
@[simp] theorem respond_eq (st : Status) (v : Word) (s : State) : respond st v s = .next (s.push ⟨st, .r32 v⟩) := rfl

@[simp] theorem respondText_eq (st : Status) (x : List Byte) (s : State) :
    respondText st x s = .next (s.push ⟨st, .rtxt x⟩) := rfl

@[simp] theorem respondRec_eq (st : Status) (f : Vector Half nFields) (s : State) :
    respondRec st f s = .next (s.push ⟨st, .rrec f⟩) := rfl

/-- Raising a fault changes nothing but the response (R181). -/
@[simp] theorem raise_eq (st : Status) (s : State) : raise st s = .next (s.push ⟨st, .r32 0#32⟩) := rfl

/-- A legal selector runs the body on its instance (R45). -/
theorem selected_of_lt {n : Nat} {sel : Byte} (h : sel.toNat < n) (s : State) (f : Fin n → Out) :
    selected n sel s f = f ⟨sel.toNat, h⟩ := by
  simp [selected, h]

/-- An illegal selector is an illegal command (R70). -/
theorem selected_of_ge {n : Nat} {sel : Byte} (h : n ≤ sel.toNat) (s : State) (f : Fin n → Out) :
    selected n sel s f = .next (s.push ⟨.illegal, .r32 0#32⟩) := by
  simp [selected, Nat.not_lt.mpr h]

/-- Everything a selected command can do. -/
theorem selected_next {n : Nat} {sel : Byte} {s t : State} {f : Fin n → Out} (h : selected n sel s f = .next t) :
    (∃ i, sel.toNat = i.val ∧ f i = .next t) ∨ (n ≤ sel.toNat ∧ t = s.push ⟨.illegal, .r32 0#32⟩) := by
  by_cases c : sel.toNat < n
  · rw [selected_of_lt c] at h
    exact .inl ⟨_, rfl, h⟩
  · rw [selected_of_ge (Nat.not_lt.mp c)] at h
    cases h
    exact .inr ⟨Nat.not_lt.mp c, rfl⟩

/-- The selector of instance `i` as a field. -/
theorem toNat_sel {n : Nat} (i : Fin n) (h : n ≤ 256) : (BitVec.ofNat 8 i.val).toNat = i.val := by
  have := i.isLt
  simp only [BitVec.toNat_ofNat]
  omega

/-- The selector of instance `i` picks `i`. -/
theorem selected_ofNat {n : Nat} (i : Fin n) (h : n ≤ 256) (s : State) (f : Fin n → Out) :
    selected n (BitVec.ofNat 8 i.val) s f = f i := by
  have e := toNat_sel i h
  rw [selected_of_lt (by rw [e]; exact i.isLt)]
  congr 1
  exact Fin.ext e

/-- The counter of `i` as an event selector picks `i`. -/
theorem eventCounter_ofNat (i : Fin nPC) (f : Fin nPC → Out) : eventCounter (BitVec.ofNat 4 i.val) f = f i := by
  match i with
  | 0 => rfl
  | 1 => rfl

/-- An event selector outside the counters is no event (R70). -/
theorem eventCounter_of_ge {e : BitVec 4} (h : nPC ≤ e.toNat) (f : Fin nPC → Out) :
    eventCounter e f = .refused .notAnEvent := by
  simp [eventCounter, Nat.not_lt.mpr h]

/-- Everything an event on a counter can do. -/
theorem eventCounter_next {e : BitVec 4} {f : Fin nPC → Out} {t : State} (h : eventCounter e f = .next t) :
    ∃ i : Fin nPC, e = BitVec.ofNat 4 i.val ∧ f i = .next t := by
  by_cases c : e.toNat < nPC
  · refine ⟨⟨e.toNat, c⟩, by simp, ?_⟩
    simpa [eventCounter, c] using h
  · rw [eventCounter_of_ge (Nat.not_lt.mp c)] at h
    cases h

@[simp] theorem guarded_true (s : State) (o : Out) : guarded true s o = o := rfl

/-- A guard bit of 0 is a precondition violation, with no effect (R110, R147). -/
@[simp] theorem guarded_false (s : State) (o : Out) : guarded false s o = .next (s.push ⟨.precond, .r32 0#32⟩) := rfl

/-- Everything a guarded command can do. -/
theorem guarded_next {b : Bool} {s t : State} {o : Out} (h : guarded b s o = .next t) :
    (b = true ∧ o = .next t) ∨ (b = false ∧ t = s.push ⟨.precond, .r32 0#32⟩) := by
  cases b
  · exact .inr ⟨rfl, by simpa using h.symm⟩
  · exact .inl ⟨rfl, h⟩

@[simp] theorem State.isArmed_eq (s : State) (i : Fin nPC) : s.isArmed i = (s.counter i).armed := rfl

@[simp] theorem State.isStarted_eq (s : State) (w : Fin nWin) : s.isStarted w = (s.window w).started := rfl

@[simp] theorem State.isValid_eq (s : State) (h : Fin nHist) : s.isValid h = (s.histogram h).valid := rfl

/-- Drawing a sample touches the ADC agent's two registers and nothing else (R143). -/
theorem State.adcAdvance_eq (s : State) : ∃ l n, s.adcAdvance = s.setAdc l n := by
  unfold State.adcAdvance
  split <;> exact ⟨_, _, rfl⟩

/-- With an answer supplied, the draw takes it. -/
theorem State.adc_cons {s : State} {a : Word} {rest : List Word} (h : s.adc = a :: rest) :
    s.adcAnswer = a ∧ s.adcAdvance = s.setAdc rest s.adcDraws := by
  simp [State.adcAnswer, State.adcAdvance, h]

/-- With none supplied, the draw takes the free value at the counter and advances the counter. -/
theorem State.adc_nil {s : State} (h : s.adc = []) :
    s.adcAnswer = adcSample s.adcDraws ∧ s.adcAdvance = s.setAdc [] (s.adcDraws + 1) := by
  simp [State.adcAnswer, State.adcAdvance, h]

/-- Consuming removes bytes from the head and nothing else (R41). -/
theorem State.rxConsume_eq (s : State) (n : Nat) : s.rxConsume n = { s with rxq := s.rxq.drop n } := rfl

/-- Consuming nothing changes nothing. -/
@[simp] theorem State.rxConsume_zero (s : State) : s.rxConsume 0 = s := rfl

/-- What `RxConsume(n)` takes and what it leaves are the queue (R54: none lost, none repeated). -/
theorem State.rxTaken_append (s : State) (n : Nat) : s.rxTaken n ++ (s.rxConsume n).rxq = s.rxq := by
  simp [State.rxTaken, State.rxConsume]

/-- POLL stays inside the primitives' conditions (R41): a peek at a non-empty queue succeeds. -/
theorem State.rxPeek_isSome (s : State) (h : s.rxAvail ≠ 0) : s.rxPeek.isSome = true := by
  cases e : s.rxq <;> simp_all [State.rxAvail, State.rxPeek]

/-- The elapsed time is the modular difference (R82). -/
theorem elapsed_toNat (now since : Time) : (elapsed now since).toNat = (now.toNat + 2 ^ 32 - since.toNat) % 2 ^ 32 := by
  simp only [elapsed, BitVec.toNat_sub]
  have := since.isLt
  congr 1
  omega

end Sys2Proof.Machine
end

