-- ==== Sys2Proof/Laws/Exec.lean ====
section
/-! SUPPORT. Inversion: for each meaning, everything it can do when it answers a next state. -/

namespace Sys2Proof.Machine

open Config

variable {s t : State}

/-- The comparison of EDGE is strict and unsigned (R81, R82). -/
@[simp] theorem edgeCounts_iff (c : PulseCounter) (now : Time) : edgeCounts c now = true ↔ c.dbw < now - c.last := by
  unfold edgeCounts elapsed
  exact decide_eq_true_iff

@[simp] theorem PulseCounter.onEdge_last (c : PulseCounter) (now : Time) : (c.onEdge now).last = now := rfl
@[simp] theorem PulseCounter.onEdge_dbw (c : PulseCounter) (now : Time) : (c.onEdge now).dbw = c.dbw := rfl
@[simp] theorem PulseCounter.onEdge_armed (c : PulseCounter) (now : Time) : (c.onEdge now).armed = c.armed := rfl

/-- The count after an edge (R81). -/
theorem PulseCounter.onEdge_count (c : PulseCounter) (now : Time) :
    (c.onEdge now).count = if c.dbw < now - c.last then c.count + 1#32 else c.count := by
  simp [PulseCounter.onEdge]

/-- A wait of INIT is a lower bound on the modular difference of `tb_ms` (R88, R89). -/
theorem waited_iff (n : Nat) (s : State) :
    waited n s = true ↔ n ≤ (s.tbMs.toNat + 2 ^ 32 - s.ht0.toNat) % 2 ^ 32 := by
  rw [← elapsed_toNat]
  exact decide_eq_true_iff

/-- A level matches within `TOL`, inclusive (R123). -/
@[simp] theorem levelMatches_iff (p : Parameters) (raw : Int) (k : Fin nLevels) :
    levelMatches p raw k = true ↔ (raw - p.cal[k].ref).natAbs ≤ tol :=
  decide_eq_true_iff

/-- The response of an illegal selector. -/
abbrev IllegalCase (n : Nat) (sel : Byte) (s t : State) : Prop :=
  n ≤ sel.toNat ∧ t = s.push ⟨.illegal, .r32 0#32⟩

theorem execAdvance_next {b : TimeBase} {n : Time} (h : execAdvance b n s = .next t) :
    t = s.setTimeBase b (s.timeBase b + n) := by
  simpa [execAdvance] using h.symm

theorem execEdge_next {e : BitVec 4} (h : execEdge e s = .next t) :
    ∃ i : Fin nPC, e = BitVec.ofNat 4 i.val ∧
      (((s.counter i).armed = true ∧ t = s.setCounter i ((s.counter i).onEdge s.tbEdge)) ∨
        ((s.counter i).armed = false ∧ t = s)) := by
  obtain ⟨i, e, d⟩ := eventCounter_next h
  refine ⟨i, e, ?_⟩
  by_cases c : (s.counter i).armed = true
  · exact .inl ⟨c, by simpa [c] using d.symm⟩
  · exact .inr ⟨by simpa using c, by simpa [c] using d.symm⟩

theorem execRead_next {sel : Byte} (h : execRead sel s = .next t) :
    (∃ i : Fin nPC, sel.toNat = i.val ∧ t = s.push ⟨.ok, .r32 (countValue (s.counter i).count)⟩) ∨
      IllegalCase nPC sel s t := by
  rcases selected_next h with ⟨i, e, h⟩ | h
  · exact .inl ⟨i, e, by simpa using h.symm⟩
  · exact .inr h

theorem execInit_next {sel : Byte} {w : Time} (h : execInit sel w s = .next t) :
    (∃ i : Fin nPC, sel.toNat = i.val ∧ t = initConfigure i w s) ∨ IllegalCase nPC sel s t := by
  rcases selected_next h with ⟨i, e, h⟩ | h
  · exact .inl ⟨i, e, by simpa using h.symm⟩
  · exact .inr h

theorem execStart_next {sel : Byte} (h : execStart sel s = .next t) :
    (∃ w : Fin nWin, sel.toNat = w.val ∧
      t = (s.setWindow w ((s.window w).restarted (winKind w) (s.counter (winCtr w)).count s.tbMs)).push ⟨.ok, .r32 0#32⟩) ∨
      IllegalCase nWin sel s t := by
  rcases selected_next h with ⟨i, e, h⟩ | h
  · exact .inl ⟨i, e, by simpa using h.symm⟩
  · exact .inr h

theorem execQuant_next {sel : Byte} (h : execQuant sel s = .next t) :
    (∃ w : Fin nWin, sel.toNat = w.val ∧
      (((s.window w).started = true ∧ t = s.push ⟨(s.quantity w).1, .r32 (s.quantity w).2⟩) ∨
        ((s.window w).started = false ∧ t = s.push ⟨.precond, .r32 0#32⟩))) ∨
      IllegalCase nWin sel s t := by
  rcases selected_next h with ⟨i, e, h⟩ | h
  · rcases guarded_next h with ⟨g, h⟩ | ⟨g, h⟩
    · exact .inl ⟨i, e, .inl ⟨g, by simpa using h.symm⟩⟩
    · exact .inl ⟨i, e, .inr ⟨g, h⟩⟩
  · exact .inr h

theorem execClassify_next {raw : Word} (h : execClassify raw s = .next t) :
    t = s.push ⟨(classAnswer (classify s.cfg (rawSample raw))).1, .r32 (classAnswer (classify s.cfg (rawSample raw))).2⟩ := by
  simpa [execClassify] using h.symm

theorem execIdx2deg_next {index : Word} (h : execIdx2deg index s = .next t) :
    (∃ k, levelOf index = some k ∧ t = s.push ⟨.ok, .r32 s.cfg.cal[k].degrees⟩) ∨
      (levelOf index = none ∧ t = s.push ⟨.noMatch, .r32 degFail⟩) := by
  unfold execIdx2deg at h
  split at h
  · next k e => exact .inl ⟨k, e, by simpa using h.symm⟩
  · next e => exact .inr ⟨e, by simpa using h.symm⟩

theorem execIdx2lbl_next {index : Word} (h : execIdx2lbl index s = .next t) :
    (∃ k, levelOf index = some k ∧ t = s.push ⟨.ok, .rtxt s.cfg.cal[k].label⟩) ∨
      (levelOf index = none ∧ t = s.push ⟨.noMatch, .rtxt lblFail⟩) := by
  unfold execIdx2lbl at h
  split at h
  · next k e => exact .inl ⟨k, e, by simpa using h.symm⟩
  · next e => exact .inr ⟨e, by simpa using h.symm⟩

theorem execHnew_next {sel : Byte} (h : execHnew sel s = .next t) :
    (∃ i : Fin nHist, sel.toNat = i.val ∧ t = (s.setHistogram i Histogram.fresh).push ⟨.ok, .r32 0#32⟩) ∨
      IllegalCase nHist sel s t := by
  rcases selected_next h with ⟨i, e, h⟩ | h
  · exact .inl ⟨i, e, by simpa using h.symm⟩
  · exact .inr h

theorem execRecord_next {sel : Byte} (h : execRecord sel s = .next t) :
    (∃ i : Fin nHist, sel.toNat = i.val ∧
      (((s.histogram i).valid = true ∧
          ∃ l n, s.adcAdvance = s.setAdc l n ∧
            t = ((s.setAdc l n).setHistogram i
              ((s.histogram i).recorded (classify s.cfg (rawSample s.adcAnswer)))).push ⟨.ok, .r32 0#32⟩) ∨
        ((s.histogram i).valid = false ∧ t = s.push ⟨.precond, .r32 0#32⟩))) ∨
      IllegalCase nHist sel s t := by
  rcases selected_next h with ⟨i, e, h⟩ | h
  · rcases guarded_next h with ⟨g, h⟩ | ⟨g, h⟩
    · obtain ⟨l, n, a⟩ := s.adcAdvance_eq
      exact .inl ⟨i, e, .inl ⟨g, l, n, a, by simpa [a] using h.symm⟩⟩
    · exact .inl ⟨i, e, .inr ⟨g, h⟩⟩
  · exact .inr h

theorem execMode_next {sel : Byte} (h : execMode sel s = .next t) :
    (∃ i : Fin nHist, sel.toNat = i.val ∧
      (((s.histogram i).valid = true ∧
          t = s.push ⟨(modeAnswer (s.histogram i).mode).1, .r32 (modeAnswer (s.histogram i).mode).2⟩) ∨
        ((s.histogram i).valid = false ∧ t = s.push ⟨.precond, .r32 0#32⟩))) ∨
      IllegalCase nHist sel s t := by
  rcases selected_next h with ⟨i, e, h⟩ | h
  · rcases guarded_next h with ⟨g, h⟩ | ⟨g, h⟩
    · exact .inl ⟨i, e, .inl ⟨g, by simpa using h.symm⟩⟩
    · exact .inl ⟨i, e, .inr ⟨g, h⟩⟩
  · exact .inr h

theorem execRxbyte_next {b : Byte} (h : execRxbyte b s = .next t) : t = s.rxAppend b := by
  simpa [execRxbyte] using h.symm

/-- POLL consumes 0, 1 or 32 bytes and answers once; on OK with the fields of the 32 bytes consumed (R162, R164). -/
theorem execPoll_next (h : execPoll s = .next t) :
    (∃ n, (n = 0 ∨ n = 1) ∧ t = (s.rxConsume n).push ⟨.notReady, .r32 0#32⟩) ∨
      (frameLen ≤ s.rxAvail ∧ s.rxPeek = some sentinel ∧
        ((frameSum (s.rxTaken frameLen) ≠ frameField (s.rxTaken frameLen) 14 ∧
            t = (s.rxConsume frameLen).push ⟨.integrity, .r32 0#32⟩) ∨
          (frameSum (s.rxTaken frameLen) = frameField (s.rxTaken frameLen) 14 ∧
            t = (s.rxConsume frameLen).push ⟨.ok, .rrec (frameFields (s.rxTaken frameLen))⟩))) := by
  unfold execPoll at h
  split at h
  · exact .inl ⟨0, .inl rfl, by simpa using h.symm⟩
  split at h
  · exact .inl ⟨1, .inr rfl, by simpa using h.symm⟩
  split at h
  · exact .inl ⟨0, .inl rfl, by simpa using h.symm⟩
  next peek avail =>
    refine .inr ⟨Nat.not_lt.mp avail, by simpa using peek, ?_⟩
    unfold acceptFrame at h
    split at h
    · next c => exact .inl ⟨c, by simpa using h.symm⟩
    · next c => exact .inr ⟨by simpa using c, by simpa using h.symm⟩

end Sys2Proof.Machine
end

