-- ==== Sys2Proof/Laws/Step.lean ====
section
/-! SUPPORT. Inversion of one step: whose turn it was and what that agent did. -/

namespace Sys2Proof.Machine

open Config

variable {s t : State}

/-- Everything the host's turn can do: pass, issue a command that is legal or not, or take the next phase of INIT. -/
theorem hostTurn_next (h : hostTurn s = .next t) :
    t = s ∨
      (s.hphase = .idle ∧ ∃ cw arg rest, s.cmds = (cw, arg) :: rest ∧
        ((∃ i, decode (.cmd cw arg) = .ok i ∧ exec i (s.setCmds rest) = .next t) ∨
          (∃ r, decode (.cmd cw arg) = .error r ∧ t = (s.setCmds rest).push ⟨.illegal, .r32 0#32⟩))) ∨
      (s.hphase = .settle1 ∧ waited s.cfg.tSettle1 s = true ∧ t = initArm s) ∨
      (s.hphase = .settle2 ∧ waited s.cfg.tSettle2 s = true ∧ initClear s = .next t) := by
  unfold hostTurn at h
  split at h
  · next p =>
    split at h
    · exact .inl (by simpa using h.symm)
    · next cw arg rest c =>
      refine .inr (.inl ⟨p, cw, arg, rest, c, ?_⟩)
      unfold issue at h
      split at h
      · next i e => exact .inl ⟨i, e, h⟩
      · next r e => exact .inr ⟨r, e, by simpa using h.symm⟩
  · next p =>
    split at h
    · next w => exact .inr (.inr (.inl ⟨p, w, by simpa using h.symm⟩))
    · exact .inl (by simpa using h.symm)
  · next p =>
    split at h
    · next w => exact .inr (.inr (.inr ⟨p, w, h⟩))
    · exact .inl (by simpa using h.symm)

/-- Everything an event's turn can do. -/
theorem eventTurn_next {ev : Byte} {ep : Word} (h : eventTurn ev ep s = .next t) :
    ∃ i, decode (.evt ev ep) = .ok i ∧ exec i s = .next t := by
  unfold eventTurn at h
  split at h
  · next i e => exact ⟨i, e, h⟩
  · cases h

/-- Everything a step can do: nothing scheduled, the host's turn, or an event. -/
theorem step_next (h : step s = .next t) :
    (s.sched = [] ∧ t = s) ∨
      (∃ rest, s.sched = .host :: rest ∧ hostTurn (s.setSched rest) = .next t) ∨
      (∃ ev ep rest i, s.sched = .event ev ep :: rest ∧ decode (.evt ev ep) = .ok i ∧
        exec i (s.setSched rest) = .next t) := by
  unfold step nextTurn at h
  split at h
  · next e => exact .inl ⟨e, by simpa using h.symm⟩
  · next turn rest e =>
    cases turn with
    | host => exact .inr (.inl ⟨rest, e, h⟩)
    | event ev ep =>
      obtain ⟨i, d, x⟩ := eventTurn_next h
      exact .inr (.inr ⟨ev, ep, rest, i, e, d, x⟩)

/-- An event decodes to an event: EDGE, ADVANCE or RXBYTE, never a command (R65). -/
theorem decodeEvent_ok {ev : Byte} {ep : Word} {i : Instr} (h : decode (.evt ev ep) = .ok i) :
    (∃ k : Fin nPC, i = .edge (BitVec.ofNat 4 k.val)) ∨ (∃ b, i = .advance b ep) ∨ (∃ b, i = .rxbyte b) := by
  simp only [decode, decodeEvent] at h
  repeat' split at h
  all_goals try cases h
  · next _ lt => exact .inl ⟨⟨_, lt⟩, by simp⟩
  · exact .inr (.inl ⟨_, rfl⟩)
  · exact .inr (.inl ⟨_, rfl⟩)
  · exact .inr (.inr ⟨_, rfl⟩)

/-- The last phase of INIT in one equation (R89). -/
theorem initClear_eq (s : State) :
    initClear s = .next (((s.setCounter s.hsel { s.counter s.hsel with count := 0#32 }).setSequencer .idle s.hsel s.ht0).push
      ⟨.ok, .r32 0#32⟩) := rfl

/-- With nothing scheduled the machine stays as it is. -/
theorem step_nil (h : s.sched = []) : step s = .next s := by
  simp [step, nextTurn, h]

/-- A step on a host's turn. -/
theorem step_host {rest : List Turn} (h : s.sched = .host :: rest) : step s = hostTurn (s.setSched rest) := by
  simp [step, nextTurn, h, takeTurn]

/-- A step on an event. -/
theorem step_event {ev : Byte} {ep : Word} {rest : List Turn} {i : Instr} (h : s.sched = .event ev ep :: rest)
    (d : decode (.evt ev ep) = .ok i) : step s = exec i (s.setSched rest) := by
  simp [step, nextTurn, h, takeTurn, eventTurn, d]

/-- The host outside INIT with a command left issues it. -/
theorem hostTurn_issue {cw arg : Word} {l : List (Word × Word)} (p : s.hphase = .idle) (c : s.cmds = (cw, arg) :: l) :
    hostTurn s = issue cw arg (s.setCmds l) := by
  simp [hostTurn, p, c]

/-- The host outside INIT with no command left passes. -/
theorem hostTurn_pass (p : s.hphase = .idle) (c : s.cmds = []) : hostTurn s = .next s := by
  simp [hostTurn, p, c]

/-- The host in INIT's first wait (R88). -/
theorem hostTurn_settle1 (p : s.hphase = .settle1) :
    hostTurn s = if waited s.cfg.tSettle1 s then .next (initArm s) else .next s := by
  simp [hostTurn, p]

/-- The host in INIT's second wait (R89). -/
theorem hostTurn_settle2 (p : s.hphase = .settle2) :
    hostTurn s = if waited s.cfg.tSettle2 s then initClear s else .next s := by
  simp [hostTurn, p]

/-- A legal command is executed. -/
theorem issue_ok {cw arg : Word} {i : Instr} (d : decode (.cmd cw arg) = .ok i) : issue cw arg s = exec i s := by
  simp [issue, d]

/-- An illegal command answers ILLEGAL (R70). -/
theorem issue_error {cw arg : Word} {r : Reject} (d : decode (.cmd cw arg) = .error r) :
    issue cw arg s = .next (s.push ⟨.illegal, .r32 0#32⟩) := by
  simp [issue, d]

end Sys2Proof.Machine
end

