-- ==== Sys2Proof/Laws/Frames.lean ====
section
/-! SUPPORT. Who writes what: the frame of `exec` for all instructions at once (the "writes" column of 20_memory.md R44), the responses it can
add, and what the decoder gives on each kind of packet. -/

namespace Sys2Proof.Machine

open Config

variable {s t : State} {i : Instr}

/-- What an instruction may have changed when it answers a next state (R44). -/
structure ExecWrites (i : Instr) (s t : State) : Prop where
  pcs : t.pcs = s.pcs ∨ (∃ e, i = .edge e) ∨ ∃ sel w, i = .init sel w
  wins : t.wins = s.wins ∨ ∃ sel, i = .start sel
  hists : t.hists = s.hists ∨ (∃ sel, i = .hnew sel) ∨ ∃ sel, i = .record sel
  tbEdge : t.tbEdge = s.tbEdge ∨ ∃ n, i = .advance .edge n
  tbMs : t.tbMs = s.tbMs ∨ ∃ n, i = .advance .ms n
  sequencer : (t.hphase = s.hphase ∧ t.hsel = s.hsel ∧ t.ht0 = s.ht0) ∨ ∃ sel w, i = .init sel w ∧ t.hphase = .settle1
  rxq : t.rxq = s.rxq ∨ i = .poll ∨ ∃ b, i = .rxbyte b
  cfg : t.cfg = s.cfg
  cmds : t.cmds = s.cmds
  sched : t.sched = s.sched
  adc : (t.adc = s.adc ∧ t.adcDraws = s.adcDraws) ∨ ∃ sel, i = .record sel

/-- A state that differs in its responses alone is in every instruction's frame. -/
theorem ExecWrites.push (i : Instr) (s : State) (r : Response) : ExecWrites i s (s.push r) :=
  ⟨.inl rfl, .inl rfl, .inl rfl, .inl rfl, .inl rfl, .inl ⟨rfl, rfl, rfl⟩, .inl rfl, rfl, rfl, rfl, .inl ⟨rfl, rfl⟩⟩

/-- The frame of every instruction. -/
theorem exec_writes (h : exec i s = .next t) : ExecWrites i s t := by
  cases i with
  | init sel w =>
    rcases execInit_next h with ⟨j, -, rfl⟩ | ⟨-, rfl⟩
    · exact ⟨.inr (.inr ⟨_, _, rfl⟩), .inl rfl, .inl rfl, .inl rfl, .inl rfl, .inr ⟨_, _, rfl, rfl⟩, .inl rfl, rfl, rfl, rfl,
        .inl ⟨rfl, rfl⟩⟩
    · exact .push _ _ _
  | read => rcases execRead_next h with ⟨j, -, rfl⟩ | ⟨-, rfl⟩ <;> exact .push _ _ _
  | start =>
    rcases execStart_next h with ⟨j, -, rfl⟩ | ⟨-, rfl⟩
    · exact ⟨.inl rfl, .inr ⟨_, rfl⟩, .inl rfl, .inl rfl, .inl rfl, .inl ⟨rfl, rfl, rfl⟩, .inl rfl, rfl, rfl, rfl, .inl ⟨rfl, rfl⟩⟩
    · exact .push _ _ _
  | quant => rcases execQuant_next h with ⟨j, -, ⟨-, rfl⟩ | ⟨-, rfl⟩⟩ | ⟨-, rfl⟩ <;> exact .push _ _ _
  | classify => rw [execClassify_next h]; exact .push _ _ _
  | idx2deg => rcases execIdx2deg_next h with ⟨j, -, rfl⟩ | ⟨-, rfl⟩ <;> exact .push _ _ _
  | idx2lbl => rcases execIdx2lbl_next h with ⟨j, -, rfl⟩ | ⟨-, rfl⟩ <;> exact .push _ _ _
  | hnew =>
    rcases execHnew_next h with ⟨j, -, rfl⟩ | ⟨-, rfl⟩
    · exact ⟨.inl rfl, .inl rfl, .inr (.inl ⟨_, rfl⟩), .inl rfl, .inl rfl, .inl ⟨rfl, rfl, rfl⟩, .inl rfl, rfl, rfl, rfl,
        .inl ⟨rfl, rfl⟩⟩
    · exact .push _ _ _
  | record =>
    rcases execRecord_next h with ⟨j, -, ⟨-, l, n, -, rfl⟩ | ⟨-, rfl⟩⟩ | ⟨-, rfl⟩
    · exact ⟨.inl rfl, .inl rfl, .inr (.inr ⟨_, rfl⟩), .inl rfl, .inl rfl, .inl ⟨rfl, rfl, rfl⟩, .inl rfl, rfl, rfl, rfl,
        .inr ⟨_, rfl⟩⟩
    · exact .push _ _ _
    · exact .push _ _ _
  | mode => rcases execMode_next h with ⟨j, -, ⟨-, rfl⟩ | ⟨-, rfl⟩⟩ | ⟨-, rfl⟩ <;> exact .push _ _ _
  | poll =>
    rcases execPoll_next h with ⟨n, -, rfl⟩ | ⟨-, -, ⟨-, rfl⟩ | ⟨-, rfl⟩⟩ <;>
      exact ⟨.inl rfl, .inl rfl, .inl rfl, .inl rfl, .inl rfl, .inl ⟨rfl, rfl, rfl⟩, .inr (.inl rfl), rfl, rfl, rfl, .inl ⟨rfl, rfl⟩⟩
  | edge =>
    obtain ⟨j, -, ⟨-, rfl⟩ | ⟨-, rfl⟩⟩ := execEdge_next h <;>
      exact ⟨.inr (.inl ⟨_, rfl⟩), .inl rfl, .inl rfl, .inl rfl, .inl rfl, .inl ⟨rfl, rfl, rfl⟩, .inl rfl, rfl, rfl, rfl, .inl ⟨rfl, rfl⟩⟩
  | advance b n =>
    rw [execAdvance_next h]
    cases b
    · exact ⟨.inl rfl, .inl rfl, .inl rfl, .inr ⟨_, rfl⟩, .inl rfl, .inl ⟨rfl, rfl, rfl⟩, .inl rfl, rfl, rfl, rfl, .inl ⟨rfl, rfl⟩⟩
    · exact ⟨.inl rfl, .inl rfl, .inl rfl, .inl rfl, .inr ⟨_, rfl⟩, .inl ⟨rfl, rfl, rfl⟩, .inl rfl, rfl, rfl, rfl, .inl ⟨rfl, rfl⟩⟩
  | rxbyte b =>
    rw [execRxbyte_next h]
    exact ⟨.inl rfl, .inl rfl, .inl rfl, .inl rfl, .inl rfl, .inl ⟨rfl, rfl, rfl⟩, .inr (.inr ⟨_, rfl⟩), rfl, rfl, rfl, .inl ⟨rfl, rfl⟩⟩

/-- The tables stay through every step (R20). -/
theorem step_cfg (h : step s = .next t) : t.cfg = s.cfg := by
  rcases step_next h with ⟨-, rfl⟩ | ⟨rest, -, h⟩ | ⟨ev, ep, rest, i, -, -, h⟩
  · rfl
  · rcases hostTurn_next h with rfl | ⟨-, cw, arg, l, -, ⟨i, -, h⟩ | ⟨r, -, rfl⟩⟩ | ⟨-, -, rfl⟩ | ⟨-, -, h⟩
    · rfl
    · exact (exec_writes h).cfg
    · rfl
    · rfl
    · rw [initClear_eq] at h
      cases h
      rfl
  · exact (exec_writes h).cfg

/-- Reading one instance after writing one. -/
theorem vector_set_get {α : Type} {n : Nat} (v : Vector α n) (i j : Fin n) (x : α) : (v.set i x)[j] = if i = j then x else v[j] := by
  simp only [Fin.getElem_fin, Vector.getElem_set, Fin.ext_iff]

/-- What an instruction can do to one counter: nothing, an edge of it, or INIT's first phase on it (R49). -/
theorem exec_counter (h : exec i s = .next t) (k : Fin nPC) :
    t.counter k = s.counter k ∨
      (i = .edge (BitVec.ofNat 4 k.val) ∧ (s.counter k).armed = true ∧ t.counter k = (s.counter k).onEdge s.tbEdge) ∨
      (∃ sel w, i = .init sel w ∧ t.hphase = .settle1 ∧ t.hsel = k ∧ t.counter k = { s.counter k with dbw := w }) := by
  rcases (exec_writes h).pcs with e | ⟨e, rfl⟩ | ⟨sel, w, rfl⟩
  · exact .inl (by simp only [State.counter, e])
  · obtain ⟨j, rfl, ⟨ha, rfl⟩ | ⟨-, rfl⟩⟩ := execEdge_next h
    · by_cases e : j = k
      · subst e
        exact .inr (.inl ⟨rfl, ha, by simp [State.counter]⟩)
      · exact .inl (by simp only [State.counter, State.setCounter_pcs, vector_set_get, if_neg e])
    · exact .inl rfl
  · rcases execInit_next h with ⟨j, -, rfl⟩ | ⟨-, rfl⟩
    · by_cases e : j = k
      · subst e
        exact .inr (.inr ⟨sel, w, rfl, rfl, rfl, by simp [initConfigure, State.counter]⟩)
      · refine .inl ?_
        simp only [initConfigure, State.counter, State.setSequencer_pcs, State.setCounter_pcs, vector_set_get, if_neg e]
    · exact .inl rfl

/-- QUANT's answer on a started window is OK, or NOT_READY with 0 (R103 to R105). -/
theorem quantity_cases (s : State) (w : Fin nWin) :
    (s.quantity w).1 = .ok ∨ s.quantity w = (.notReady, 0#32) := by
  unfold State.quantity
  split
  · exact .inl rfl
  · dsimp only
    split
    · exact .inr rfl
    · exact .inl rfl

/-- An instruction adds no response, or one lawful response in front (R66, R180). -/
theorem exec_rsps (h : exec i s = .next t) : t.rsps = s.rsps ∨ ∃ r, Response.Lawful r ∧ t.rsps = r :: s.rsps := by
  cases i with
  | init => rcases execInit_next h with ⟨j, -, rfl⟩ | ⟨-, rfl⟩; exacts [.inl rfl, .inr ⟨_, rfl, rfl⟩]
  | read => rcases execRead_next h with ⟨j, -, rfl⟩ | ⟨-, rfl⟩; exacts [.inr ⟨_, trivial, rfl⟩, .inr ⟨_, rfl, rfl⟩]
  | start => rcases execStart_next h with ⟨j, -, rfl⟩ | ⟨-, rfl⟩; exacts [.inr ⟨_, trivial, rfl⟩, .inr ⟨_, rfl, rfl⟩]
  | quant =>
    rcases execQuant_next h with ⟨j, -, ⟨-, rfl⟩ | ⟨-, rfl⟩⟩ | ⟨-, rfl⟩
    · refine .inr ⟨_, ?_, rfl⟩
      rcases quantity_cases s j with e | e
      · rw [e]; trivial
      · rw [e]
    · exact .inr ⟨_, rfl, rfl⟩
    · exact .inr ⟨_, rfl, rfl⟩
  | classify raw =>
    rw [execClassify_next h]
    refine .inr ⟨_, ?_, rfl⟩
    cases classify s.cfg (rawSample raw)
    · exact .inl rfl
    · trivial
  | idx2deg =>
    rcases execIdx2deg_next h with ⟨j, -, rfl⟩ | ⟨-, rfl⟩
    exacts [.inr ⟨_, trivial, rfl⟩, .inr ⟨_, Or.inr (Or.inl rfl), rfl⟩]
  | idx2lbl =>
    rcases execIdx2lbl_next h with ⟨j, -, rfl⟩ | ⟨-, rfl⟩
    exacts [.inr ⟨_, trivial, rfl⟩, .inr ⟨_, Or.inr (Or.inr rfl), rfl⟩]
  | hnew => rcases execHnew_next h with ⟨j, -, rfl⟩ | ⟨-, rfl⟩; exacts [.inr ⟨_, trivial, rfl⟩, .inr ⟨_, rfl, rfl⟩]
  | record =>
    rcases execRecord_next h with ⟨j, -, ⟨-, l, n, -, rfl⟩ | ⟨-, rfl⟩⟩ | ⟨-, rfl⟩
    exacts [.inr ⟨_, trivial, rfl⟩, .inr ⟨_, rfl, rfl⟩, .inr ⟨_, rfl, rfl⟩]
  | mode =>
    rcases execMode_next h with ⟨j, -, ⟨-, rfl⟩ | ⟨-, rfl⟩⟩ | ⟨-, rfl⟩
    · refine .inr ⟨_, ?_, rfl⟩
      unfold modeAnswer
      split
      · exact .inl rfl
      · trivial
    · exact .inr ⟨_, rfl, rfl⟩
    · exact .inr ⟨_, rfl, rfl⟩
  | poll =>
    rcases execPoll_next h with ⟨n, -, rfl⟩ | ⟨-, -, ⟨-, rfl⟩ | ⟨-, rfl⟩⟩
    exacts [.inr ⟨_, rfl, rfl⟩, .inr ⟨_, rfl, rfl⟩, .inr ⟨_, trivial, rfl⟩]
  | edge => obtain ⟨j, -, ⟨-, rfl⟩ | ⟨-, rfl⟩⟩ := execEdge_next h <;> exact .inl rfl
  | advance b => rw [execAdvance_next h]; exact .inl (by simp)
  | rxbyte => rw [execRxbyte_next h]; exact .inl rfl

/-- A command packet never decodes to an event (R62). -/
theorem decodeCommand_ok {cw arg : Word} (h : decode (.cmd cw arg) = .ok i) :
    (∀ e, i ≠ .edge e) ∧ (∀ b n, i ≠ .advance b n) ∧ (∀ b, i ≠ .rxbyte b) := by
  simp only [decode, decodeCommand] at h
  split at h
  · cases h
  · next op _ =>
    split at h
    · cases h
    · split at h
      · cases h
        cases op <;> simp [Op.instr]
      · cases h

/-- An event code is its two fields. -/
theorem eventCode_fields (ev : Byte) : eventCode (kindField ev) (eselField ev) = ev := by
  apply BitVec.eq_of_toNat_eq
  simp only [eventCode, kindField, eselField, BitVec.toNat_append, BitVec.extractLsb'_toNat, Nat.shiftRight_zero]
  rw [← Nat.shiftLeft_add_eq_or_of_lt (Nat.mod_lt _ (by decide)), Nat.shiftLeft_eq, Nat.shiftRight_eq_div_pow]
  have := ev.isLt
  omega

/-- An event's code is the code of the event it decodes to (R65). -/
theorem decodeEvent_code {ev : Byte} {ep : Word} (h : decode (.evt ev ep) = .ok i) : ∃ p, encode i = .evt ev p := by
  simp only [decode, decodeEvent] at h
  repeat' split at h
  all_goals try cases h
  · next k _ => exact ⟨_, by rw [encode, ← k, eventCode_fields]⟩
  · next k e => exact ⟨_, by rw [encode, TimeBase.esel, ← k, ← e, eventCode_fields]⟩
  · next k _ e => exact ⟨_, by rw [encode, TimeBase.esel, ← k, ← e, eventCode_fields]⟩
  · next k e _ =>
    simp only [ne_eq, Decidable.not_not] at e
    exact ⟨_, by rw [encode, ← k, ← e, eventCode_fields]⟩

end Sys2Proof.Machine
end

