-- ==== Sys2Proof/Laws/PerInstr.lean ====
section
/-! SUPPORT. Per instruction: its encoding lies in its own row of spec/opcode_table.json (match and mask, 30_encoding.md R62 and R65). -/

namespace Sys2Proof.Laws.EncodesOwnRow

open Sys2Proof

/-- A command word under a row's mask is the row's match. -/
def inCommandRow (mask pattern : Word) : Packet → Prop
  | .cmd cw _ => cw &&& mask = pattern
  | .evt _ _ => False

/-- An event code under a row's mask is the row's match. -/
def inEventRow (mask pattern : Byte) : Packet → Prop
  | .cmd _ _ => False
  | .evt ev _ => ev &&& mask = pattern

/-- The instruction's encoding matches its row. -/
def Statement : Instr → Prop
  | .init sel w => inCommandRow 0xFF00FFFF#32 0x01000000#32 (encode (.init sel w))
  | .read sel => inCommandRow 0xFF00FFFF#32 0x02000000#32 (encode (.read sel))
  | .start sel => inCommandRow 0xFF00FFFF#32 0x10000000#32 (encode (.start sel))
  | .quant sel => inCommandRow 0xFF00FFFF#32 0x11000000#32 (encode (.quant sel))
  | .classify raw => inCommandRow 0xFFFFFFFF#32 0x20000000#32 (encode (.classify raw))
  | .idx2deg k => inCommandRow 0xFFFFFFFF#32 0x21000000#32 (encode (.idx2deg k))
  | .idx2lbl k => inCommandRow 0xFFFFFFFF#32 0x22000000#32 (encode (.idx2lbl k))
  | .hnew sel => inCommandRow 0xFF00FFFF#32 0x30000000#32 (encode (.hnew sel))
  | .record sel => inCommandRow 0xFF00FFFF#32 0x31000000#32 (encode (.record sel))
  | .mode sel => inCommandRow 0xFF00FFFF#32 0x32000000#32 (encode (.mode sel))
  | .poll => inCommandRow 0xFFFFFFFF#32 0x40000000#32 (encode .poll)
  | .edge e => inEventRow 0xF0#8 0x10#8 (encode (.edge e))
  | .advance b n => inEventRow 0xF0#8 0x20#8 (encode (.advance b n))
  | .rxbyte b => inEventRow 0xFF#8 0x30#8 (encode (.rxbyte b))

/-- The masked word of an opcode, whatever the selector. -/
theorem masked_commandWord (op : Op) : ∀ sel : Byte,
    commandWord op sel &&& 0xFF00FFFF#32 = commandWord op 0#8 := by
  cases op <;> decide +kernel

/-- The masked code of an event kind, whatever the selector. -/
theorem masked_eventCode (kind : BitVec 4) : ∀ e : BitVec 4, eventCode kind e &&& 0xF0#8 = eventCode kind 0#4 := by
  revert kind
  decide +kernel

theorem init (sel : Byte) (window : Time) : Statement (.init sel window) := masked_commandWord .init sel
theorem read (sel : Byte) : Statement (.read sel) := masked_commandWord .read sel
theorem start (sel : Byte) : Statement (.start sel) := masked_commandWord .start sel
theorem quant (sel : Byte) : Statement (.quant sel) := masked_commandWord .quant sel
theorem classify (raw : Word) : Statement (.classify raw) := rfl
theorem idx2deg (index : Word) : Statement (.idx2deg index) := rfl
theorem idx2lbl (index : Word) : Statement (.idx2lbl index) := rfl
theorem hnew (sel : Byte) : Statement (.hnew sel) := masked_commandWord .hnew sel
theorem record (sel : Byte) : Statement (.record sel) := masked_commandWord .record sel
theorem mode (sel : Byte) : Statement (.mode sel) := masked_commandWord .mode sel
theorem poll : Statement .poll := rfl
theorem edge (esel : BitVec 4) : Statement (.edge esel) := masked_eventCode 1#4 esel
theorem advance (which : TimeBase) (n : Time) : Statement (.advance which n) := by cases which <;> rfl
theorem rxbyte (b : Byte) : Statement (.rxbyte b) := rfl

end Sys2Proof.Laws.EncodesOwnRow
end

