-- ==== Sys2Proof/Laws/Runs.lean ====
section
/-! SUPPORT. Runs: composition, and the package of an induction over them. -/

namespace Sys2Proof.Machine

open Config

variable {s t u : State}

theorem runs_zero : Runs 0 s t ↔ s = t := Iff.rfl

theorem runs_succ {n : Nat} : Runs (n + 1) s t ↔ ∃ u, step s = .next u ∧ Runs n u t := Iff.rfl

/-- One step is a run. -/
theorem runs_one (h : step s = .next t) : Runs 1 s t := ⟨t, h, rfl⟩

/-- Runs compose. -/
theorem runs_trans {m n : Nat} (h : Runs m s t) (g : Runs n t u) : Runs (m + n) s u := by
  induction m generalizing s with
  | zero =>
    cases h
    simpa using g
  | succ m ih =>
    obtain ⟨v, a, b⟩ := h
    rw [Nat.succ_add]
    exact ⟨v, a, ih b⟩

/-- What holds at the start and is kept by every step holds at the end. -/
theorem runs_invariant {P : State → Prop} (keep : ∀ s t, P s → step s = .next t → P t) {n : Nat} (h : Runs n s t)
    (base : P s) : P t := by
  induction n generalizing s with
  | zero => exact h ▸ base
  | succ n ih =>
    obtain ⟨v, a, b⟩ := h
    exact ih b (keep _ _ base a)

/-- The code of EDGE(i) decodes to it (R65). -/
theorem decode_edgeCode (i : Fin nPC) (ep : Word) :
    decode (.evt (edgeCode i) ep) = .ok (.edge (BitVec.ofNat 4 i.val)) := by
  match i with
  | 0 => rfl
  | 1 => rfl

/-- No delivery is no turn. -/
@[simp] theorem deliveries_nil (i : Fin nPC) : deliveries i [] = [] := rfl

/-- One delivery is an advance and an edge. -/
@[simp] theorem deliveries_cons (i : Fin nPC) (g : Time) (gaps : List Time) :
    deliveries i (g :: gaps) = .event 0x20#8 g :: .event (edgeCode i) 0#32 :: deliveries i gaps := rfl

end Sys2Proof.Machine
end

