-- ==== Sys2Proof/Laws/Units.lean ====
section
/-! SUPPORT. The calculations inside the units: the checksum and the fields of a frame, MODE's scan, CLASSIFY's scan, and rounding. -/

namespace Sys2Proof.Machine

open Config

/-- The 16-bit accumulator holds the plain sum modulo 65536 (R167). -/
theorem sum16_toNat (b : List Byte) : (sum16 b).toNat = byteSum b % 65536 := by
  have key : ∀ (l : List Byte) (a : Half),
      (l.foldl (fun acc x => acc + x.setWidth 16) a).toNat = (a.toNat + byteSum l) % 65536 := by
    intro l
    induction l with
    | nil => intro a; have := a.isLt; simp [byteSum]; omega
    | cons x l ih =>
      intro a
      have := x.isLt
      rw [List.foldl_cons, ih]
      simp only [byteSum, List.map_cons, List.sum_cons, BitVec.toNat_add, BitVec.toNat_setWidth]
      omega
  simp [sum16, key]

/-- A byte sum is at most 255 per byte. -/
theorem byteSum_le (b : List Byte) : byteSum b ≤ 255 * b.length := by
  induction b with
  | nil => simp [byteSum]
  | cons x l ih =>
    have := x.isLt
    simp only [byteSum, List.map_cons, List.sum_cons, List.length_cons] at ih ⊢
    omega

/-- Replacing one byte changes the sum by the difference of the bytes. -/
theorem byteSum_set (l : List Byte) (n : Nat) (h : n < l.length) (y : Byte) :
    byteSum (l.set n y) + l[n].toNat = byteSum l + y.toNat := by
  induction l generalizing n with
  | nil => simp at h
  | cons x l ih =>
    cases n with
    | zero => simp [byteSum]; omega
    | succ n =>
      have := ih n (by simpa using h)
      simp [byteSum] at this ⊢
      omega

/-- A big-endian field is `hi * 256 + lo` (R42). -/
theorem bigEndian_toNat (hi lo : Byte) : (bigEndian hi lo).toNat = hi.toNat * 256 + lo.toNat := by
  simp only [bigEndian, BitVec.toNat_append]
  rw [← Nat.shiftLeft_add_eq_or_of_lt lo.isLt, Nat.shiftLeft_eq]

/-- Laying a field out and reading it back (R42). -/
theorem bigEndian_fieldBytes (f : Half) : bigEndian (f.extractLsb' 8 8) (f.extractLsb' 0 8) = f := by
  have := f.isLt
  apply BitVec.eq_of_toNat_eq
  rw [bigEndian_toNat]
  simp only [BitVec.extractLsb'_toNat, Nat.shiftRight_eq_div_pow, Nat.pow_zero, Nat.div_one]
  omega

/-- The first thirty bytes of a frame are thirty. -/
theorem frameBody_length (b1 : Byte) (f : Vector Half 14) : (frameBody b1 f).length = sumLen := by
  have : ∀ l : List Half, (l.flatMap fieldBytes).length = 2 * l.length := by
    intro l
    induction l with
    | nil => rfl
    | cons x l ih => simp [fieldBytes, ih]; omega
  simp [frameBody, this, sumLen]

/-- The two bytes of field `j` in a run of fields. -/
theorem flatMap_fieldBytes_getD (l : List Half) (j : Nat) (h : j < l.length) (tail : List Byte) :
    (l.flatMap fieldBytes ++ tail).getD (2 * j) 0#8 = l[j].extractLsb' 8 8 ∧
      (l.flatMap fieldBytes ++ tail).getD (2 * j + 1) 0#8 = l[j].extractLsb' 0 8 := by
  induction l generalizing j with
  | nil => simp at h
  | cons x l ih =>
    cases j with
    | zero => simp [fieldBytes]
    | succ j =>
      have := ih j (by simpa using h)
      simpa [fieldBytes, Nat.mul_add] using this

/-- MODE's scan keeps its best when nothing exceeds it (R146). -/
theorem scanMode_keep (l : List Bucket) (k best : Nat) (bestc : Bucket) (h : ∀ x ∈ l, ¬ bestc < x) :
    scanMode l k best bestc = best := by
  induction l generalizing k with
  | nil => rfl
  | cons c l ih =>
    rw [scanMode, if_neg (h c (by simp))]
    exact ih _ (fun x hx => h x (by simp [hx]))

/-- MODE's scan stops at the first greatest bucket (R146). -/
theorem scanMode_first (pre : List Bucket) (m : Bucket) (post : List Bucket) (k best : Nat) (bestc : Bucket)
    (hpre : ∀ x ∈ pre, x < m) (hm : bestc < m) (hpost : ∀ x ∈ post, x ≤ m) :
    scanMode (pre ++ m :: post) k best bestc = k + pre.length := by
  induction pre generalizing k best bestc with
  | nil =>
    rw [List.nil_append, scanMode, if_pos hm, scanMode_keep _ _ _ _ (fun x hx => BitVec.not_lt.mpr (hpost x hx))]
    rfl
  | cons c l ih =>
    rw [List.cons_append, scanMode]
    split
    · rw [ih _ _ _ (fun x hx => hpre x (by simp [hx])) (hpre c (by simp))]
      simp only [List.length_cons]
      omega
    · rw [ih _ _ _ (fun x hx => hpre x (by simp [hx])) hm]
      simp only [List.length_cons]
      omega

/-- CLASSIFY finds the level at scan position `p` when it matches and no earlier one does (R124). -/
theorem classify_first (c : Parameters) (raw : Int) (p : Fin nLevels) (h : levelMatches c raw c.scan[p] = true)
    (before : ∀ q : Fin nLevels, q < p → levelMatches c raw c.scan[q] = false) : classify c raw = some c.scan[p] := by
  unfold classify
  rw [List.find?_eq_some_iff_getElem]
  refine ⟨h, p.val, by simp, by simp, fun j hj => ?_⟩
  rw [Bool.not_eq_eq_eq_not, Bool.not_true]
  exact before ⟨j, by omega⟩ hj

/-- CLASSIFY finds nothing when no level matches (R122). -/
theorem classify_none (c : Parameters) (raw : Int) (h : ∀ p : Fin nLevels, levelMatches c raw c.scan[p] = false) :
    classify c raw = none := by
  unfold classify
  rw [List.find?_eq_none]
  intro x hx
  rw [Vector.mem_toList_iff, Vector.mem_iff_getElem] at hx
  obtain ⟨j, hj, rfl⟩ := hx
  rw [Bool.not_eq_true]
  exact h ⟨j, hj⟩

/-- Everything a match of CLASSIFY says: the level found stands at some scan position, matches, and no earlier position does (R122, R124). -/
theorem classify_some {c : Parameters} {raw : Int} {k : Fin nLevels} (h : classify c raw = some k) :
    ∃ p : Fin nLevels, c.scan[p] = k ∧ levelMatches c raw k = true ∧
      ∀ q : Fin nLevels, q < p → levelMatches c raw c.scan[q] = false := by
  unfold classify at h
  rw [List.find?_eq_some_iff_getElem] at h
  obtain ⟨m, p, hp, e, before⟩ := h
  rw [Vector.length_toList] at hp
  refine ⟨⟨p, hp⟩, by simpa using e, m, fun q hq => ?_⟩
  have := before q.val hq
  rwa [Bool.not_eq_eq_eq_not, Bool.not_true, Vector.getElem_toList] at this

/-- A rounded quotient is the floor or one more. -/
theorem roundHalfEven_bounds (n d : Nat) : n / d ≤ roundHalfEven n d ∧ roundHalfEven n d ≤ n / d + 1 := by
  unfold roundHalfEven
  have : n / d % 2 < 2 := Nat.mod_lt _ (by omega)
  dsimp only
  repeat' split
  all_goals omega

/-- Rounding a quotient depends on the quotient alone. -/
theorem roundHalfEven_scale (a b k : Nat) (hk : 0 < k) : roundHalfEven (a * k) (b * k) = roundHalfEven a b := by
  have lt : 2 * (a % b * k) < b * k ↔ 2 * (a % b) < b := by
    rw [← Nat.mul_assoc]
    exact Nat.mul_lt_mul_right hk
  have gt : b * k < 2 * (a % b * k) ↔ b < 2 * (a % b) := by
    rw [← Nat.mul_assoc]
    exact Nat.mul_lt_mul_right hk
  unfold roundHalfEven
  simp only [Nat.mul_div_mul_right _ _ hk, Nat.mul_mod_mul_right, lt, gt]

/-- The rounded quotient is a nearest integer, and an even one where another is as near (R107, D13). -/
theorem roundHalfEven_nearest (n d m : Nat) (hd : 0 < d) :
    ((roundHalfEven n d * d : Int) - n).natAbs ≤ ((m * d : Int) - n).natAbs ∧
      (((roundHalfEven n d * d : Int) - n).natAbs = ((m * d : Int) - n).natAbs →
        m = roundHalfEven n d ∨ roundHalfEven n d % 2 = 0) := by
  have e := Nat.div_add_mod n d
  have lt := Nat.mod_lt n hd
  unfold roundHalfEven
  dsimp only
  generalize hf : n / d = f at *
  generalize n % d = r at *
  have hm : m ≤ f ∨ f + 1 ≤ m := by omega
  have lo : ∀ k : Nat, k ≤ f → k * d ≤ f * d := fun k h => Nat.mul_le_mul_right d h
  have c1 : (f + 1) * d = f * d + d := by ring
  have c2 : d * f = f * d := by ring
  have P : (m * d ≤ f * d ∧ (m ≠ f → m * d + d ≤ f * d)) ∨ (f * d + d ≤ m * d ∧ (m ≠ f + 1 → f * d + d + d ≤ m * d)) := by
    rcases hm with h | h
    · refine .inl ⟨lo _ h, fun ne => ?_⟩
      have := lo (m + 1) (by omega)
      have e : (m + 1) * d = m * d + d := by ring
      omega
    · refine .inr ⟨by have := Nat.mul_le_mul_right d h; omega, fun ne => ?_⟩
      have := Nat.mul_le_mul_right d (show f + 2 ≤ m by omega)
      have e : (f + 2) * d = f * d + d + d := by ring
      omega
  have z1 : ((f : Int) * d) = ((f * d : Nat) : Int) := by push_cast; ring
  have z2 : ((m : Int) * d) = ((m * d : Nat) : Int) := by push_cast; ring
  have z3 : (((f + 1 : Nat) : Int) * d) = ((f * d + d : Nat) : Int) := by push_cast; ring
  generalize hF : f * d = F at *
  generalize hM : m * d = M at *
  rw [z2]
  split
  · rw [z1]; constructor
    · omega
    · intro h; left
      by_contra ne
      omega
  split
  · rw [z3]; constructor
    · omega
    · intro h; left; by_contra ne
      omega
  · by_cases p : f % 2 = 0
    · rw [p, Nat.add_zero, z1]; constructor
      · omega
      · intro; right; exact p
    · have : f % 2 = 1 := by omega
      rw [this, z3]; constructor
      · omega
      · intro; right; omega

/-- The number `rnd`'s pattern stands for, its parity, and that above the subnormals the quotient fills the significand (R107). -/
theorem f32Units_rnd (q : Ratio) (hd : 0 < q.den) (h : q.num < q.den * 2 ^ 127) :
    (rnd q).toNat < 0x7F800000 ∧
    f32Units (rnd q) = roundHalfEven (q.num * 2 ^ 149) (q.den * 2 ^ (Nat.log2 (q.num * 2 ^ 149 / q.den) - 23)) *
      2 ^ (Nat.log2 (q.num * 2 ^ 149 / q.den) - 23) ∧
    (rnd q).toNat % 2 = roundHalfEven (q.num * 2 ^ 149) (q.den * 2 ^ (Nat.log2 (q.num * 2 ^ 149 / q.den) - 23)) % 2 ∧
    (0 < Nat.log2 (q.num * 2 ^ 149 / q.den) - 23 →
      2 ^ 23 * (q.den * 2 ^ (Nat.log2 (q.num * 2 ^ 149 / q.den) - 23)) ≤ q.num * 2 ^ 149) := by
  unfold rnd
  dsimp only
  set S := q.num * 2 ^ 149 with hS
  obtain ⟨e, he⟩ : ∃ e, e = 127 + 149 := ⟨_, rfl⟩
  have h2 : S / q.den < 2 ^ e := by
    rw [Nat.div_lt_iff_lt_mul hd, hS]
    calc q.num * 2 ^ 149 < q.den * 2 ^ 127 * 2 ^ 149 := Nat.mul_lt_mul_of_pos_right h (by positivity)
      _ = _ := by rw [Nat.mul_assoc, ← Nat.pow_add, ← he, Nat.mul_comm]
  have l2 : S / q.den ≠ 0 → (S / q.den).log2 < e := fun h0 => (Nat.log2_lt h0).mpr h2
  have l2' : (S / q.den).log2 < e := by
    by_cases h0 : S / q.den = 0
    · rw [h0, he]; decide
    · exact l2 h0
  clear l2
  have l3 : S / q.den < 2 ^ ((S / q.den).log2 + 1) := Nat.lt_log2_self
  have l1 : S / q.den ≠ 0 → 2 ^ (S / q.den).log2 ≤ S / q.den := fun h0 => Nat.log2_self_le h0
  set L := (S / q.den).log2 with hL
  obtain ⟨r1, r2⟩ := roundHalfEven_bounds S (q.den * 2 ^ (L - 23))
  have l4 : S / (q.den * 2 ^ (L - 23)) < 2 ^ 24 := by
    rw [← Nat.div_div_eq_div_mul, Nat.div_lt_iff_lt_mul (by positivity), ← Nat.pow_add]
    exact lt_of_lt_of_le l3 (Nat.pow_le_pow_right (by omega) (by omega))
  have l5 : 0 < L - 23 → 2 ^ 23 ≤ S / (q.den * 2 ^ (L - 23)) := by
    intro hp
    have h0 : S / q.den ≠ 0 := by
      intro h0; rw [hL, h0] at hp; revert hp; decide
    rw [← Nat.div_div_eq_div_mul, Nat.le_div_iff_mul_le (by positivity), ← Nat.pow_add]
    have : 23 + (L - 23) = L := by omega
    rw [this]; exact l1 h0
  have l7 : 0 < L - 23 → 2 ^ 23 * (q.den * 2 ^ (L - 23)) ≤ S := fun h =>
    (Nat.le_div_iff_mul_le (Nat.mul_pos hd (by positivity))).mp (l5 h)
  clear l1 l3 h2 hS h
  have l6 : L - 23 ≤ 252 := by omega
  generalize L - 23 = k at *
  generalize roundHalfEven S (q.den * 2 ^ k) = R at *
  generalize S / (q.den * 2 ^ k) = F at *
  clear l2'
  have ineq : k * 2 ^ 23 + R < 0x7F800000 := by omega
  have tn : (BitVec.ofNat 32 (min (k * 2 ^ 23 + R) f32Infinity)).toNat = k * 2 ^ 23 + R := by
    simp only [f32Infinity, BitVec.toNat_ofNat]; omega
  rw [f32Units, tn]
  refine ⟨ineq, ?_, by omega, l7⟩
  rcases Nat.eq_zero_or_pos k with k0 | kp
  · subst k0
    split
    · omega
    · by_cases t : R = 2 ^ 24
      · subst t; decide
      · have e1 : (0 * 2 ^ 23 + R) / 2 ^ 23 = 1 := by omega
        have e2 : (0 * 2 ^ 23 + R) % 2 ^ 23 = R - 2 ^ 23 := by omega
        rw [e1, e2]; omega
  · have := l5 kp
    rw [if_neg (by omega)]
    by_cases t : R = 2 ^ 24
    · subst t
      have e1 : (k * 2 ^ 23 + 2 ^ 24) / 2 ^ 23 = k + 2 := by omega
      have e2 : (k * 2 ^ 23 + 2 ^ 24) % 2 ^ 23 = 0 := by omega
      rw [e1, e2]
      have : k + 2 - 1 = k + 1 := by omega
      rw [this, Nat.pow_succ]; omega
    · have e1 : (k * 2 ^ 23 + R) / 2 ^ 23 = k + 1 := by omega
      have e2 : (k * 2 ^ 23 + R) % 2 ^ 23 = R - 2 ^ 23 := by omega
      rw [e1, e2]
      have : k + 1 - 1 = k := by omega
      rw [this]
      have : 2 ^ 23 + (R - 2 ^ 23) = R := by omega
      rw [this]

/-- A binary32 number is a multiple of `2^k` units, or smaller than any 24-bit significand at that scale. -/
theorem f32Units_scaled (v : Word) (k : Nat) : (∃ m, f32Units v = m * 2 ^ k) ∨ f32Units v < 2 ^ 23 * 2 ^ k := by
  unfold f32Units
  split
  · next h =>
    by_cases k0 : k = 0
    · subst k0; exact .inl ⟨v.toNat, by simp⟩
    · right
      calc v.toNat < 2 ^ 23 * 1 := by omega
        _ ≤ _ := Nat.mul_le_mul_left _ (Nat.one_le_two_pow)
  · by_cases h : k ≤ v.toNat / 2 ^ 23 - 1
    · left
      refine ⟨(2 ^ 23 + v.toNat % 2 ^ 23) * 2 ^ (v.toNat / 2 ^ 23 - 1 - k), ?_⟩
      rw [Nat.mul_assoc, ← Nat.pow_add]; congr 2; omega
    · right
      have a : 2 ^ (v.toNat / 2 ^ 23 - 1) * 2 ≤ 2 ^ k := by
        rw [← Nat.pow_succ]; exact Nat.pow_le_pow_right (by omega) (by omega)
      generalize 2 ^ (v.toNat / 2 ^ 23 - 1) = A at *
      have : v.toNat % 2 ^ 23 < 2 ^ 23 := Nat.mod_lt _ (by omega)
      have pos : 0 < 2 ^ k := by positivity
      generalize 2 ^ k = B at *
      have : (2 ^ 23 + v.toNat % 2 ^ 23) * A ≤ (2 ^ 24 - 1) * A := Nat.mul_le_mul_right _ (by omega)
      omega

end Sys2Proof.Machine
end

