-- ==== Sys2Proof/Tests/Slice0.lean ====
section
/-! SUPPORT. Tests. Expected results are the vectors of spec/95_test_vectors.md (their ids stand in the names) or the encodings of
30_encoding.md R62, R65, R73, never the model's own answers. The witnesses at the end meet the hypotheses of each obligation. -/

namespace Sys2Proof.Tests

open Sys2Proof.Machine Sys2Proof.Config

/-! ## Small states -/

/-- The vectors' start: reset, time bases 0, the test tables, both waits 100. -/
def base : State := { State.reset with tbEdge := 0#32, tbMs := 0#32, cfg := ⟨100, 100, calT, groupsT, scanT⟩ }

/-- `base` with one counter's record. -/
def withCounter (i : Fin nPC) (c : PulseCounter) : State := base.setCounter i c

/-- `base` with a valid histogram. -/
def withBuckets (b : Vector Bucket nLevels) : State := base.setHistogram 0 ⟨b, true⟩

/-- `base` with a schedule and a command list. -/
def queued (turns : List Turn) (l : List (Word × Word)) : State := { base with sched := turns, cmds := l }

/-- The next state, if there is one. -/
def got : Out → Option State
  | .next s => some s
  | .fault _ => none
  | .refused _ => none

/-- The response a step drove. -/
def answer (o : Out) : Option Response := (got o).bind fun s => s.rsps.head?

/-- An (OK, value) response. -/
def okValue (v : Word) : Option Response := some ⟨.ok, .r32 v⟩

/-- `CAL_V` of R130: `CAL_T` with level 8 at 530. -/
def calV : Vector CalLevel nLevels := calT.set 8 ⟨530, 0x41B40000#32, ascii "north-north-east"⟩

/-- `base` with another table and scan order. -/
def withTables (cal : Vector CalLevel nLevels) (scan : Vector (Fin nLevels) nLevels) : State :=
  { base with cfg := ⟨100, 100, cal, groupsT, scan⟩ }

/-- A scan order that visits the intercardinal level 8 before level 0 (95_test_vectors.md section 2.6, after K25). -/
def scanEightFirst : Vector (Fin nLevels) nLevels := #v[8, 0, 1, 2, 3, 4, 5, 6, 7, 9, 10, 11, 12, 13, 14, 15]

/-- A scan order admissible with `groupsT` that visits each group backwards. -/
def scanBackwards : Vector (Fin nLevels) nLevels := #v[7, 6, 5, 4, 3, 2, 1, 0, 15, 14, 13, 12, 11, 10, 9, 8]

/-- The good frame G of 95_test_vectors.md section 1.1. -/
def frameG : List Byte :=
  [0x42#8, 0x4D#8, 0x00#8, 0x1C#8, 0x00#8, 0x0A#8, 0x00#8, 0x14#8, 0x00#8, 0x1E#8, 0x00#8, 0x0F#8, 0x00#8, 0x19#8, 0x00#8, 0x23#8]
    ++ [0x00#8, 0x01#8, 0x00#8, 0x02#8, 0x00#8, 0x03#8, 0x00#8, 0x04#8, 0x00#8, 0x05#8, 0x00#8, 0x06#8, 0x00#8, 0x00#8, 0x01#8, 0x47#8]

/-! ## Well-formedness: one ill-formed term for each check -/

theorem smoke_init_sel : ¬ (Instr.init 2#8 0#32).WellFormed := by decide
theorem smoke_read_sel : ¬ (Instr.read 2#8).WellFormed := by decide
theorem smoke_start_sel : ¬ (Instr.start 2#8).WellFormed := by decide
theorem smoke_quant_sel : ¬ (Instr.quant 2#8).WellFormed := by decide
theorem smoke_hnew_sel : ¬ (Instr.hnew 1#8).WellFormed := by decide
theorem smoke_record_sel : ¬ (Instr.record 1#8).WellFormed := by decide
theorem smoke_mode_sel : ¬ (Instr.mode 1#8).WellFormed := by decide
theorem smoke_edge_esel : ¬ (Instr.edge 2#4).WellFormed := by decide

/-! ## Decoding: the words of R73, one for each constructor -/

theorem decode_unit_pc :
    decode (.cmd 0x01010000#32 0x00001388#32) = .ok (.init 1#8 5000#32) ∧ decode (.cmd 0x02010000#32 0xDEADBEEF#32) = .ok (.read 1#8) :=
  ⟨rfl, rfl⟩

theorem decode_unit_wm :
    decode (.cmd 0x10010000#32 0#32) = .ok (.start 1#8) ∧ decode (.cmd 0x11000000#32 0#32) = .ok (.quant 0#8) :=
  ⟨rfl, rfl⟩

theorem decode_unit_cl :
    decode (.cmd 0x20000000#32 0x0000021B#32) = .ok (.classify 539#32) ∧
      decode (.cmd 0x21000000#32 0x0000000F#32) = .ok (.idx2deg 15#32) ∧
      decode (.cmd 0x22000000#32 0x000000FF#32) = .ok (.idx2lbl 255#32) :=
  ⟨rfl, rfl, rfl⟩

theorem decode_unit_dn :
    decode (.cmd 0x30000000#32 0#32) = .ok (.hnew 0#8) ∧ decode (.cmd 0x31000000#32 0#32) = .ok (.record 0#8) ∧
      decode (.cmd 0x32000000#32 0#32) = .ok (.mode 0#8) :=
  ⟨rfl, rfl, rfl⟩

theorem decode_unit_fd : decode (.cmd 0x40000000#32 0#32) = .ok .poll := rfl

theorem decode_events :
    decode (.evt 0x10#8 0#32) = .ok (.edge 0#4) ∧ decode (.evt 0x11#8 0#32) = .ok (.edge 1#4) ∧
      decode (.evt 0x20#8 0x00030D40#32) = .ok (.advance .edge 200000#32) ∧
      decode (.evt 0x21#8 0x00000064#32) = .ok (.advance .ms 100#32) ∧ decode (.evt 0x30#8 0x4D#32) = .ok (.rxbyte 0x4D#8) :=
  ⟨rfl, rfl, rfl, rfl, rfl⟩

/-- Vectors X1 to X13. -/
theorem decode_illegal_X1_to_X13 :
    [0x00000000#32, 0x03000000#32, 0x41000000#32, 0xFFFFFFFF#32, 0x02000001#32, 0x02020000#32, 0x01FF0000#32, 0x10020000#32,
      0x20010000#32, 0x21008000#32, 0x31010000#32, 0x40000100#32, 0x12000000#32].all
      (fun cw => match decode (.cmd cw 0#32) with | .ok _ => false | .error _ => true) = true := by decide

/-- The table's numbering: commands of 32 bits with `ARG` zero, or of 64; events of 8 bits, or of 40. -/
theorem decode_table_words :
    decodeTableWord 32 0x11010000 = some (.quant 1#8) ∧ decodeTableWord 64 0x0000138801000000 = some (.init 0#8 5000#32) ∧
      decodeTableWord 8 0x21 = some (.advance .ms 0#32) ∧ decodeTableWord 40 0x4D30 = some (.rxbyte 0x4D#8) ∧
      decodeTableWord 32 0x12000000 = none := by decide

/-- Each row runs as the first instruction after reset. -/
theorem first_after_reset :
    [(32, 0x01000000), (32, 0x02000000), (32, 0x10000000), (32, 0x11000000), (32, 0x20000000), (32, 0x21000000), (32, 0x22000000),
      (32, 0x30000000), (32, 0x31000000), (32, 0x32000000), (32, 0x40000000), (8, 0x10), (8, 0x20), (8, 0x30)].all
      (fun p => (got (step (State.reset.withFetchWord p.1 p.2))).isSome) = true := by decide

/-! ## One step each -/

/-- A3: `tb_edge` wraps. -/
theorem test_advance_A3 :
    (got (exec (.advance .edge 0x20#32) { base with tbEdge := 0xFFFFFFF0#32 })).map (fun s => (s.tbEdge, s.tbMs)) = some (0x10#32, 0#32) := by
  decide

/-- A4: `tb_ms` wraps. -/
theorem test_advance_A4 :
    (got (exec (.advance .ms 1#32) { base with tbMs := 0xFFFFFFFF#32 })).map (fun s => (s.tbEdge, s.tbMs)) = some (0#32, 0#32) := by
  decide

/-- E1 and E2: one tick over the window counts, equal to it does not, and `let` moves either way. -/
theorem test_edge_E1_E2 :
    (got (exec (.edge 0#4) { withCounter 0 ⟨7#32, 1000#32, 5000#32, true⟩ with tbEdge := 6001#32 })).map (fun s => s.counter 0) =
        some ⟨8#32, 6001#32, 5000#32, true⟩ ∧
      (got (exec (.edge 0#4) { withCounter 0 ⟨7#32, 1000#32, 5000#32, true⟩ with tbEdge := 6000#32 })).map (fun s => s.counter 0) =
        some ⟨7#32, 6000#32, 5000#32, true⟩ := by decide

/-- E6, E10 and E11: the difference is unsigned, the count wraps, an unarmed counter stays. -/
theorem test_edge_E6_E10_E11 :
    (got (exec (.edge 0#4) { withCounter 0 ⟨0#32, 0x10#32, 5000#32, true⟩ with tbEdge := 0x90000010#32 })).map (fun s => (s.counter 0).count) =
        some 1#32 ∧
      (got (exec (.edge 0#4) { withCounter 0 ⟨0xFFFFFFFF#32, 0#32, 5000#32, true⟩ with tbEdge := 9000#32 })).map
        (fun s => (s.counter 0).count) = some 0#32 ∧
      (got (exec (.edge 0#4) { withCounter 0 ⟨0#32, 0#32, 5000#32, false⟩ with tbEdge := 9000#32 })).map (fun s => s.counter 0) =
        some ⟨0#32, 0#32, 5000#32, false⟩ := by decide

/-- RD2. -/
theorem test_read_RD2 : answer (exec (.read 1#8) (withCounter 1 ⟨0x00012345#32, 0#32, 0#32, true⟩)) = okValue 0x00012345#32 := by decide

/-- RD3: all 32 bits. -/
theorem test_read_RD3 : answer (exec (.read 0#8) (withCounter 0 ⟨0xFFFFFFFF#32, 0#32, 0#32, true⟩)) = okValue 0xFFFFFFFF#32 := by decide

/-- I1: phase 1 writes the window, does not arm and does not answer. -/
theorem test_init_I1 :
    (got (exec (.init 0#8 5000#32) { base with tbMs := 400#32 })).map (fun s => (s.counter 0, s.hphase, s.hsel, s.ht0, s.rsps)) =
      some (⟨0#32, 0#32, 5000#32, false⟩, .settle1, 0, 400#32, []) := by decide

/-- I7 and I8 (the first wait across the wrap of `tb_ms`), I6 (phase 3 keeps `let`). -/
theorem test_init_I6_I7_I8 :
    (got (hostTurn { base with hphase := .settle1, ht0 := 0xFFFFFFF0#32, tbMs := 0x53#32 })).map (fun s => s.hphase) = some .settle1 ∧
      (got (hostTurn { base with hphase := .settle1, ht0 := 0xFFFFFFF0#32, tbMs := 0x54#32 })).map
        (fun s => (s.hphase, s.ht0, (s.counter 0).armed)) = some (.settle2, 0x54#32, true) ∧
      (got (hostTurn { withCounter 0 ⟨2#32, 90000#32, 5000#32, true⟩ with hphase := .settle2, ht0 := 500#32, tbMs := 600#32 })).map
        (fun s => (s.hphase, s.counter 0, s.rsps)) = some (.idle, ⟨0#32, 90000#32, 5000#32, true⟩, [⟨.ok, .r32 0#32⟩]) := by decide

/-- S1. -/
theorem test_start_S1 :
    (got (exec (.start 0#8) (withCounter 0 ⟨5#32, 0#32, 0#32, true⟩))).map (fun s => s.window 0) = some ⟨5#32, 0#32, true⟩ := by decide

/-- S2. -/
theorem test_start_S2 :
    (got (exec (.start 1#8) { withCounter 1 ⟨120#32, 0#32, 0#32, true⟩ with tbMs := 50000#32 })).map (fun s => s.window 1) =
      some ⟨120#32, 50000#32, true⟩ := by decide

/-- Q7: the count wrapped inside the window; Q23: not started. -/
theorem test_quant_Q7_Q23 :
    ((withCounter 0 ⟨8#32, 0#32, 0#32, true⟩).setWindow 0 ⟨0xFFFFFFFE#32, 0#32, true⟩).quantity 0 = (.ok, 0x3FB2D0E5#32) ∧
      answer (exec (.quant 0#8) base) = some ⟨.precond, .r32 0#32⟩ := by decide

/-- Q10: edges but no elapsed time; Q21: `tb_ms` wrapped inside the window. -/
theorem test_quant_Q10_Q21 :
    answer (exec (.quant 1#8) ({ withCounter 1 ⟨4#32, 0#32, 0#32, true⟩ with tbMs := 50000#32 }.setWindow 1 ⟨0#32, 50000#32, true⟩)) =
        some ⟨.notReady, .r32 0#32⟩ ∧
      ({ withCounter 1 ⟨3#32, 0#32, 0#32, true⟩ with tbMs := 0x3E8#32 }.setWindow 1 ⟨0#32, 0xFFFFFC18#32, true⟩).quantity 1 =
        (.ok, 0x3F800004#32) := by decide

/-- Q2, Q4, Q6 and Q8: delta times 0.1397. -/
theorem test_rnd_accumulated :
    rnd ⟨1 * 1397, 10000⟩ = 0x3E0F0D84#32 ∧ rnd ⟨3 * 1397, 10000⟩ = 0x3ED69446#32 ∧ rnd ⟨100 * 1397, 10000⟩ = 0x415F851F#32 ∧
      rnd ⟨4294967295 * 1397, 10000⟩ = 0x4E0F0D84#32 := by decide

/-- Q13, Q14, Q16, Q18, Q19 and Q20: delta over elapsed times 666.667. -/
theorem test_rnd_rate :
    rnd ⟨10 * 666667, 1000 * 1000⟩ = 0x40D5555C#32 ∧ rnd ⟨3 * 666667, 2000 * 1000⟩ = 0x3F800004#32 ∧
      rnd ⟨1 * 666667, 3 * 1000⟩ = 0x435E38EB#32 ∧ rnd ⟨4 * 666667, 5000 * 1000⟩ = 0x3F08888D#32 ∧
      rnd ⟨7 * 666667, 4294967295 * 1000⟩ = 0x3591D55A#32 ∧ rnd ⟨4294967295 * 666667, 1 * 1000⟩ = 0x5426AAB0#32 := by decide

/-- K2, K4, K10 and K18. -/
theorem test_classify_K2_K4_K10_K18 :
    answer (exec (.classify 529#32) base) = okValue 0#32 ∧ answer (exec (.classify 550#32) base) = some ⟨.noMatch, .r32 0xFF#32⟩ ∧
      answer (exec (.classify 50#32) base) = okValue 9#32 ∧
      answer (exec (.classify 0x80000000#32) base) = some ⟨.noMatch, .r32 0xFF#32⟩ := by decide

/-- K20 (first match, not best match) and K22, with `CAL_V`. -/
theorem test_classify_K20_K22 :
    answer (exec (.classify 532#32) (withTables calV scanT)) = okValue 0#32 ∧
      answer (exec (.classify 528#32) (withTables calV scanT)) = okValue 8#32 := by decide

/-- R130 and section 2.6: both test tables are admissible with `SCAN_T`, and so is another order inside the groups (R121), but not one with level 8
before level 0, which would answer 8 for 532. -/
theorem test_admissible_tables :
    base.cfg.Admissible ∧ (withTables calV scanT).cfg.Admissible ∧ (withTables calV scanBackwards).cfg.Admissible ∧
      ¬ (withTables calV scanEightFirst).cfg.Admissible ∧
      answer (exec (.classify 532#32) (withTables calV scanEightFirst)) = okValue 8#32 :=
  ⟨by decide, by decide, by decide, by decide, by decide⟩

/-- L3. -/
theorem test_idx2deg_L3 : answer (exec (.idx2deg 15#32) base) = okValue 0x43A8C000#32 := by decide

/-- L4 and L9: 16 is out of range, 256 is not taken modulo 256. -/
theorem test_idx2deg_L4_L9 :
    answer (exec (.idx2deg 16#32) base) = some ⟨.noMatch, .r32 0xBF800000#32⟩ ∧
      answer (exec (.idx2deg 256#32) base) = some ⟨.noMatch, .r32 0xBF800000#32⟩ := by decide

/-- L14. -/
theorem test_idx2lbl_L14 : answer (exec (.idx2lbl 2#32) base) = some ⟨.ok, .rtxt [0x65#8, 0x61#8, 0x73#8, 0x74#8]⟩ := by decide

/-- L7. -/
theorem test_idx2lbl_L7 :
    answer (exec (.idx2lbl 16#32) base) = some ⟨.noMatch, .rtxt [0x65#8, 0x72#8, 0x72#8, 0x6F#8, 0x72#8]⟩ := by decide

/-- H14. -/
theorem test_hnew_H14 :
    (got (exec (.hnew 0#8) (withBuckets ((Vector.replicate nLevels 0#32).set 0 3#32)))).map (fun s => s.histogram 0) =
      some ⟨Vector.replicate nLevels 0#32, true⟩ := by decide

/-- H6 (dropped, same answer) and H13 (a bucket wraps); one sample is used up. -/
theorem test_record_H6_H13 :
    (got (exec (.record 0#8) { withBuckets ((Vector.replicate nLevels 0#32).set 0 2#32) with adc := [550#32] })).map
        (fun s => ((s.histogram 0).buckets[0], s.adc, s.rsps)) = some (2#32, [], [⟨.ok, .r32 0#32⟩]) ∧
      (got (exec (.record 0#8) { withBuckets ((Vector.replicate nLevels 0#32).set 3 0xFFFFFFFF#32) with adc := [180#32, 7#32] })).map
        (fun s => ((s.histogram 0).buckets[3], s.adc, s.rsps)) = some (0#32, [7#32], [⟨.ok, .r32 0#32⟩]) := by decide

/-- H1: no sample is drawn. -/
theorem test_record_H1 :
    (got (exec (.record 0#8) { base with adc := [541#32] })).map (fun s => (s.adc, s.adcDraws, s.rsps)) =
      some ([541#32], 0, [⟨.precond, .r32 0#32⟩]) := by decide

/-- H9: a tie goes to the lowest index; H10: only bucket 15. -/
theorem test_mode_H9_H10 :
    answer (exec (.mode 0#8) (withBuckets ((((Vector.replicate nLevels 0#32).set 0 2#32).set 2 5#32).set 4 5#32))) = okValue 2#32 ∧
      answer (exec (.mode 0#8) (withBuckets ((Vector.replicate nLevels 0#32).set 15 1#32))) = okValue 15#32 := by decide

/-- H4. -/
theorem test_mode_H4 : answer (exec (.mode 0#8) (withBuckets (Vector.replicate nLevels 0#32))) = some ⟨.noMatch, .r32 0xFF#32⟩ := by decide

/-- `RXBYTE` appends at the tail (section 2.9). -/
theorem test_rxbyte : (got (exec (.rxbyte 0x4D#8) (base.setRxq [0x42#8]))).map (fun s => s.rxq) = some [0x42#8, 0x4D#8] := by decide

/-- F2 and F4: one garbage byte goes; a frame of 31 bytes waits whole. -/
theorem test_poll_F2_F4 :
    (got (exec .poll (base.setRxq [0x00#8, 0x42#8, 0x4D#8]))).map (fun s => (s.rxq, s.rsps)) =
        some ([0x42#8, 0x4D#8], [⟨.notReady, .r32 0#32⟩]) ∧
      (got (exec .poll (base.setRxq (frameG.take 31)))).map (fun s => (s.rxq.length, s.rsps)) =
        some (31, [⟨.notReady, .r32 0#32⟩]) := by decide

/-- F6 and F8: the record of G with a byte after it; one bit of byte 5 flipped. -/
theorem test_poll_F6_F8 :
    (got (exec .poll (base.setRxq (frameG ++ [0x42#8])))).map (fun s => (s.rxq, s.rsps)) =
        some ([0x42#8], [⟨.ok, .rrec #v[28#16, 10#16, 20#16, 30#16, 15#16, 25#16, 35#16, 1#16, 2#16, 3#16, 4#16, 5#16, 6#16, 0#16, 327#16]⟩]) ∧
      (got (exec .poll (base.setRxq (frameG.set 5 0x0B#8)))).map (fun s => (s.rxq, s.rsps)) =
        some ([], [⟨.integrity, .r32 0#32⟩]) := by decide

/-- X11: an illegal command draws no sample and changes nothing but the response. -/
theorem test_illegal_X11 :
    (got (step { queued [.host] [(0x31010000#32, 0#32)] with adc := [541#32] })).map (fun s => (s.adc, s.cmds, s.rsps)) =
      some ([541#32], [], [⟨.illegal, .r32 0#32⟩]) := by decide

/-! ## Witnesses: each obligation's hypotheses are met, each clause at a boundary value -/

/-- Counter 0 armed, window 5000, `let` = 1000, count 7. -/
def armed0 : PulseCounter := ⟨7#32, 1000#32, 5000#32, true⟩

/-- An armed counter with a count of zero. -/
def armedZero : PulseCounter := ⟨0#32, 1000#32, 5000#32, true⟩

/-- A frame of 32 bytes: 42, then zeros, with the two checksum bytes given. -/
def frameOf (hi lo : Byte) : Vector Byte 32 := (((Vector.replicate 32 0#8).set 0 0x42#8).set 30 hi).set 31 lo

theorem witness_DecodeOfEncodeGivesTheInstruction :
    (Instr.init 1#8 0xFFFFFFFF#32).WellFormed ∧ (Instr.mode 0#8).WellFormed ∧ (Instr.edge 1#4).WellFormed := by decide

theorem witness_AcceptedWordsAreEncodings :
    decode (.cmd 0x02010000#32 5#32) = .ok (.read 1#8) ∧ decode (.cmd 0x20000000#32 5#32) = .ok (.classify 5#32) ∧
      decode (.evt 0x11#8 5#32) = .ok (.edge 1#4) :=
  ⟨rfl, rfl, rfl⟩

theorem witness_StepRunsTheDecodedCommand :
    ∃ s : State, s.sched = .host :: [] ∧ s.hphase = .idle ∧ s.cmds = (0x02010000#32, 0#32) :: [] ∧
      decode (.cmd 0x02010000#32 0#32) = .ok (.read 1#8) :=
  ⟨queued [.host] [(0x02010000#32, 0#32)], rfl, rfl, rfl, rfl⟩

theorem witness_StepRunsTheDecodedEvent :
    ∃ s : State, s.sched = .event 0x11#8 0#32 :: [] ∧ decode (.evt 0x11#8 0#32) = .ok (.edge 1#4) :=
  ⟨queued [.event 0x11#8 0#32] [], rfl, rfl⟩

theorem witness_NothingHappensByItself :
    base.sched = [] ∧ ∃ s : State, s.sched = .host :: [] ∧ s.hphase = .idle ∧ s.cmds = [] :=
  ⟨rfl, queued [.host] [], rfl, rfl, rfl⟩

theorem witness_PlacedWordRunsNext : decodeTableWord 32 0x11010000 = some (.quant 1#8) ∧ decodeTableWord 8 0x11 = some (.edge 1#4) := by
  decide

theorem witness_IllegalCommandChangesNothing :
    (∀ cw : Word, (queued [.host] [(cw, 0#32)]).sched = .host :: [] ∧ (queued [.host] [(cw, 0#32)]).hphase = .idle ∧
      (queued [.host] [(cw, 0#32)]).cmds = (cw, 0#32) :: []) ∧
    (0x41000000#32).extractLsb' 24 8 ∉
      [0x01#8, 0x02#8, 0x10#8, 0x11#8, 0x20#8, 0x21#8, 0x22#8, 0x30#8, 0x31#8, 0x32#8, 0x40#8] ∧
    (0x02000001#32).extractLsb' 0 16 ≠ 0#16 ∧
    (if (0x02020000#32).extractLsb' 24 8 ∈ [0x01#8, 0x02#8, 0x10#8, 0x11#8] then 2 else 1) ≤ ((0x02020000#32).extractLsb' 16 8).toNat ∧
    (if (0x31010000#32).extractLsb' 24 8 ∈ [0x01#8, 0x02#8, 0x10#8, 0x11#8] then 2 else 1) ≤ ((0x31010000#32).extractLsb' 16 8).toNat :=
  ⟨fun _ => ⟨rfl, rfl, rfl⟩, by decide, by decide, by decide, by decide⟩

theorem witness_NonEventsAreRefused :
    (∀ ev : Byte, (queued [.event ev 0#32] []).sched = .event ev 0#32 :: []) ∧
    (0x41#8).extractLsb' 4 4 ∉ [1#4, 2#4, 3#4] ∧
    ((0x12#8).extractLsb' 4 4 ∈ [1#4, 2#4] ∧ 2 ≤ ((0x12#8).extractLsb' 0 4).toNat) ∧
    ((0x22#8).extractLsb' 4 4 ∈ [1#4, 2#4] ∧ 2 ≤ ((0x22#8).extractLsb' 0 4).toNat) ∧
    ((0x31#8).extractLsb' 4 4 = 3#4 ∧ (0x31#8).extractLsb' 0 4 ≠ 0#4) :=
  ⟨fun _ => rfl, by decide, by decide, by decide, by decide⟩

theorem witness_TheMachineGoesOn :
    (Instr.init 1#8 0#32).WellFormed ∧ step (queued [.event 0x12#8 0#32] []) = .refused .notAnEvent :=
  ⟨by decide, rfl⟩

theorem witness_IllFormedTermsHaveNoEffect : 2 ≤ (2#8).toNat ∧ 1 ≤ (1#8).toNat ∧ 2 ≤ (2#4).toNat := by decide

theorem witness_AdvanceMovesOneTimeBase : ∃ t, exec (.advance .ms 7#32) base = .next t := ⟨_, rfl⟩

theorem witness_ZeroWindowStillNeedsElapsedTime :
    ∃ s : State, s.pcs[(0 : Fin nPC)].armed = true ∧ s.pcs[(0 : Fin nPC)].dbw = 0#32 :=
  ⟨withCounter 0 ⟨3#32, 777#32, 0#32, true⟩, rfl, rfl⟩

theorem witness_EdgesInsideTheWindowCountAtMostOnce :
    ∃ s : State, s.sched = deliveries 0 [6001#32, 5000#32, 1#32] ++ [] ∧ s.pcs[(0 : Fin nPC)].armed = true ∧
      ∀ x ∈ [5000#32, 1#32], x ≤ s.pcs[(0 : Fin nPC)].dbw :=
  ⟨{ withCounter 0 armed0 with sched := deliveries 0 [6001#32, 5000#32, 1#32] }, rfl, rfl, by
    intro x hx
    rcases List.mem_cons.mp hx with rfl | hx
    · decide
    · rw [List.mem_singleton.mp hx]
      decide⟩

theorem witness_ReadEqualsTheNumberOfEdgesDelivered :
    ∃ s : State, s.sched = deliveries 1 [6001#32, 5001#32] ++ .host :: [] ∧ s.hphase = .idle ∧
      s.cmds = (0x02000000#32 ||| (BitVec.ofNat 32 (1 : Fin nPC).val <<< 16), 0#32) :: [] ∧ s.pcs[(1 : Fin nPC)].armed = true ∧
      s.pcs[(1 : Fin nPC)].count = 0#32 ∧ s.pcs[(1 : Fin nPC)].dbw < s.tbEdge + 6001#32 - s.pcs[(1 : Fin nPC)].last ∧
      (∀ x ∈ [5001#32], s.pcs[(1 : Fin nPC)].dbw < x) ∧ [5001#32].length + 1 < 2 ^ 32 :=
  ⟨{ withCounter 1 ⟨0#32, 1000#32, 5000#32, true⟩ with
      sched := deliveries 1 [6001#32, 5001#32] ++ [.host], cmds := [(0x02010000#32, 0#32)] },
    rfl, rfl, rfl, rfl, rfl, by decide, fun x hx => by rw [List.mem_singleton.mp hx]; decide, by decide⟩

theorem witness_InitArmsAfterTheFirstWait :
    ∃ s : State, s.sched = .host :: [] ∧ s.hphase = .settle1 ∧ s.cfg.tSettle1 ≤ (s.tbMs.toNat + 2 ^ 32 - s.ht0.toNat) % 2 ^ 32 :=
  ⟨{ queued [.host] [] with hphase := .settle1, ht0 := 0xFFFFFFF0#32, tbMs := 0x54#32 }, rfl, rfl, by decide⟩

theorem witness_InitClearsAfterTheSecondWait :
    ∃ s : State, s.sched = .host :: [] ∧ s.hphase = .settle2 ∧ s.cfg.tSettle2 ≤ (s.tbMs.toNat + 2 ^ 32 - s.ht0.toNat) % 2 ^ 32 :=
  ⟨{ queued [.host] [] with hphase := .settle2, ht0 := 500#32, tbMs := 600#32 }, rfl, rfl, by decide⟩

theorem witness_InitRunsToItsResponse :
    ∃ s : State, s.sched = .host :: .event 0x21#8 100#32 :: .host :: .event 0x21#8 100#32 :: .host :: [] ∧ s.hphase = .idle ∧
      s.cmds = (0x01000000#32 ||| (BitVec.ofNat 32 (1 : Fin nPC).val <<< 16), 5000#32) :: [] ∧
      s.cfg.tSettle1 ≤ (100#32).toNat ∧ s.cfg.tSettle2 ≤ (100#32).toNat :=
  ⟨queued [.host, .event 0x21#8 100#32, .host, .event 0x21#8 100#32, .host] [(0x01010000#32, 5000#32)], rfl, rfl, rfl, by decide, by decide⟩

theorem witness_NoCommandIsIssuedInsideInit :
    (∃ s t : State, s.sched = .host :: [] ∧ s.hphase ≠ .idle ∧ step s = .next t) ∧
    (∃ s : State, s.sched = .event 0x10#8 0#32 :: [] ∧ s.hphase ≠ .idle ∧ decode (.evt 0x10#8 0#32) = .ok (.edge 0#4)) :=
  ⟨⟨{ queued [.host] [] with hphase := .settle2, ht0 := 500#32, tbMs := 600#32 }, _, rfl, by decide, rfl⟩,
    ⟨{ queued [.event 0x10#8 0#32] [] with hphase := .settle1 }, rfl, by decide, rfl⟩⟩

theorem witness_EdgesOfTwoCountersCommute : (0 : Fin nPC) ≠ 1 := by decide

/-- Window 0 started at 5, counter 0 at 15. -/
def rain : State := (withCounter 0 ⟨15#32, 0#32, 0#32, true⟩).setWindow 0 ⟨5#32, 0#32, true⟩

theorem witness_AccumulatedQuantity : rain.wins[0].started = true ∧ rain.pcs[0].count = rain.wins[0].baseCount + 10#32 := by decide

theorem witness_RateQuantity :
    (∃ s : State, s.wins[1].started = true ∧ s.tbMs = s.wins[1].baseTime) ∧
    (∃ s : State, s.wins[1].started = true ∧ s.tbMs ≠ s.wins[1].baseTime) :=
  ⟨⟨{ base with tbMs := 50000#32 }.setWindow 1 ⟨0#32, 50000#32, true⟩, rfl, rfl⟩,
    ⟨{ base with tbMs := 50001#32 }.setWindow 1 ⟨0#32, 50000#32, true⟩, rfl, by decide⟩⟩

theorem witness_UnmetPreconditionChangesNothing :
    base.wins[(1 : Fin nWin)].started = false ∧ base.hists[(0 : Fin nHist)].valid = false := by decide

theorem witness_RestartThenQueryIsZero : (1#32 : Time) ≠ 0#32 := by decide

theorem witness_WindowsAreIndependent :
    (0 : Fin nWin) ≠ 1 ∧ (∃ t, exec (.start (BitVec.ofNat 8 (0 : Fin nWin).val)) rain = .next t) ∧
      ∃ t, exec (.quant (BitVec.ofNat 8 (0 : Fin nWin).val)) rain = .next t :=
  ⟨by decide, ⟨_, rfl⟩, ⟨_, rfl⟩⟩

theorem witness_RoundingDependsOnTheRationalAlone :
    0 < (Ratio.mk 3 2000).den ∧ 0 < (Ratio.mk 15 10000).den ∧ (Ratio.mk 3 2000).num * (Ratio.mk 15 10000).den =
      (Ratio.mk 15 10000).num * (Ratio.mk 3 2000).den := by decide

theorem witness_RoundingIsToNearestTiesToEven :
    0 < (Ratio.mk (2 ^ 24 + 1) 1).den ∧ (Ratio.mk (2 ^ 24 + 1) 1).num < (Ratio.mk (2 ^ 24 + 1) 1).den * 2 ^ 127 ∧
      (0x7F7FFFFF#32).toNat < 0x7F800000 := by decide

theorem witness_QuantitiesAreZeroOrNormal :
    ∃ t, exec (.quant (BitVec.ofNat 8 (0 : Fin nWin).val)) rain = .next t ∧ t.rsps.head? = some ⟨.ok, .r32 (rain.quantity 0).2⟩ :=
  ⟨_, rfl, rfl⟩

theorem witness_RainIsTheNumberOfEdgesTimesTheConstant :
    ∃ s : State, s.sched = .host :: (deliveries 0 [6001#32, 5001#32] ++ .host :: []) ∧ s.hphase = .idle ∧
      s.cmds = (0x10000000#32, 0#32) :: (0x11000000#32, 0#32) :: [] ∧ s.pcs[0].armed = true ∧
      s.pcs[0].dbw < s.tbEdge + 6001#32 - s.pcs[0].last ∧ (∀ x ∈ [5001#32], s.pcs[0].dbw < x) ∧ [5001#32].length + 1 < 2 ^ 32 :=
  ⟨{ withCounter 0 ⟨0xFFFFFFFF#32, 1000#32, 5000#32, true⟩ with
      sched := .host :: (deliveries 0 [6001#32, 5001#32] ++ [.host]), cmds := [(0x10000000#32, 0#32), (0x11000000#32, 0#32)] },
    rfl, rfl, rfl, rfl, by decide, fun x hx => by rw [List.mem_singleton.mp hx]; decide, by decide⟩

/-- Differences of 10 and of 11, at both edges of a level (K2, K3, K4 and 528). -/
theorem witness_ClassifyAnswersTheFirstMatchInScanOrder :
    ((529#32 : Word).toInt - base.cfg.cal[base.cfg.scan[(0 : Fin nLevels)]].ref).natAbs ≤ 10 ∧
    ((549#32 : Word).toInt - base.cfg.cal[base.cfg.scan[(0 : Fin nLevels)]].ref).natAbs ≤ 10 ∧
    (∀ p : Fin nLevels, 10 < ((550#32 : Word).toInt - base.cfg.cal[base.cfg.scan[p]].ref).natAbs) ∧
    (∀ p : Fin nLevels, 10 < ((528#32 : Word).toInt - base.cfg.cal[base.cfg.scan[p]].ref).natAbs) ∧
    ((50#32 : Word).toInt - base.cfg.cal[base.cfg.scan[(9 : Fin nLevels)]].ref).natAbs ≤ 10 ∧
    (∀ q : Fin nLevels, q < 9 → 10 < ((50#32 : Word).toInt - base.cfg.cal[base.cfg.scan[q]].ref).natAbs) := by decide

theorem witness_TheDocumentsTwoSamples :
    base.cfg.Admissible ∧ ∀ k : Fin nLevels, k ≠ 0 → 10 < ((539 : Int) - base.cfg.cal[k].ref).natAbs := by decide

theorem witness_LookupsAnswerTheRecordOrTheSentinel : 16 ≤ (16#32).toNat ∧ 16 ≤ (0xFFFFFFFF#32).toNat := by decide

theorem witness_FailureSentinelsAreConsistent :
    base.cfg.Admissible ∧ (∃ t, exec (.classify 550#32) base = .next t ∧ t.rsps = ⟨.noMatch, .r32 255#32⟩ :: base.rsps) ∧
      ∃ t, exec (.mode 0#8) (withBuckets (Vector.replicate nLevels 0#32)) = .next t ∧
        t.rsps = ⟨.noMatch, .r32 255#32⟩ :: (withBuckets (Vector.replicate nLevels 0#32)).rsps :=
  ⟨by decide, ⟨_, rfl, by decide⟩, ⟨_, rfl, by decide⟩⟩

theorem witness_ClassifyIsAFunctionForTheLifeOfTheBlock : ∃ t, Runs 2 (queued [.host, .event 0x10#8 0#32] [(0x30000000#32, 0#32)]) t :=
  ⟨_, _, rfl, _, rfl, rfl⟩

theorem witness_RecordCountsTheClassOfOneSample :
    (∃ s : State, s.hists[0].valid = true ∧ s.adc = 541#32 :: [] ∧ classify s.cfg (541#32 : Word).toInt = some 0) ∧
    (∃ s : State, s.hists[0].valid = true ∧ s.adc = 550#32 :: [] ∧ classify s.cfg (550#32 : Word).toInt = none) ∧
    (∃ s : State, s.hists[0].valid = true ∧ s.adc = []) :=
  ⟨⟨{ withBuckets (Vector.replicate nLevels 0#32) with adc := [541#32] }, rfl, rfl, by decide⟩,
    ⟨{ withBuckets (Vector.replicate nLevels 0#32) with adc := [550#32] }, rfl, rfl, by decide⟩,
    ⟨withBuckets (Vector.replicate nLevels 0#32), rfl, rfl⟩⟩

/-- The buckets of H9: 2, 0, 5, 0, 5, then zeros. -/
def tie : State := withBuckets ((((Vector.replicate nLevels 0#32).set 0 2#32).set 2 5#32).set 4 5#32)

theorem witness_ModeIsTheLowestIndexOfTheGreatestCount :
    tie.hists[0].valid = true ∧ tie.hists[0].buckets[(2 : Fin nLevels)] ≠ 0#32 ∧
    (∀ j : Fin nLevels, tie.hists[0].buckets[j] ≤ tie.hists[0].buckets[(2 : Fin nLevels)]) ∧
    (∀ j : Fin nLevels, j < 2 → tie.hists[0].buckets[j] < tie.hists[0].buckets[(2 : Fin nLevels)]) ∧
    ∃ s : State, s.hists[0].valid = true ∧ ∀ k : Fin nLevels, s.hists[0].buckets[k] = 0#32 :=
  ⟨by decide, by decide, by decide, by decide, withBuckets (Vector.replicate nLevels 0#32), by decide, by decide⟩

theorem witness_MajorityVoteScenario :
    classify base.cfg (539#32 : Word).toInt = some 0 ∧ classify base.cfg (300#32 : Word).toInt = some 1 ∧
    (∃ s : State, s.cfg = base.cfg ∧ s.adc = 539#32 :: 541#32 :: 300#32 :: 539#32 :: [] ∧ classify s.cfg (541#32 : Word).toInt = some 0 ∧
      s.hphase = .idle ∧ s.sched = List.replicate 6 .host ∧
      s.cmds = [(0x30000000#32, 0#32), (0x31000000#32, 0#32), (0x31000000#32, 0#32), (0x31000000#32, 0#32), (0x31000000#32, 0#32),
        (0x32000000#32, 0#32)]) ∧
    (∃ s : State, s.adc = [550#32] ∧ (∀ a ∈ [550#32], classify s.cfg a.toInt = none) ∧ s.hphase = .idle ∧
      s.sched = List.replicate ([550#32].length + 2) .host ∧
      s.cmds = (0x30000000#32, 0#32) :: (List.replicate [550#32].length (0x31000000#32, 0#32) ++ [(0x32000000#32, 0#32)])) :=
  ⟨by decide, by decide,
    ⟨{ queued (List.replicate 6 .host) [(0x30000000#32, 0#32), (0x31000000#32, 0#32), (0x31000000#32, 0#32), (0x31000000#32, 0#32),
        (0x31000000#32, 0#32), (0x32000000#32, 0#32)] with adc := [539#32, 541#32, 300#32, 539#32] }, rfl, rfl, by decide, rfl, rfl, rfl⟩,
    ⟨{ queued (List.replicate 3 .host) [(0x30000000#32, 0#32), (0x31000000#32, 0#32), (0x32000000#32, 0#32)] with adc := [550#32] },
      rfl, fun x hx => by rw [List.mem_singleton.mp hx]; decide, rfl, rfl, rfl⟩⟩

theorem witness_PollTakesItsFiveSteps :
    base.rxq = [] ∧
    (∃ s : State, s.rxq = 0x43#8 :: [] ∧ (0x43#8 : Byte) ≠ 0x42#8) ∧
    (∃ s : State, s.rxq = 0x42#8 :: List.replicate 30 0#8 ∧ s.rxq.length < 32) ∧
    (∃ s : State, s.rxq = (frameOf 0#8 0#8).toList ++ [] ∧ (frameOf 0#8 0#8)[0] = 0x42#8 ∧
      byteSum ((frameOf 0#8 0#8).toList.take 30) % 65536 ≠ (frameOf 0#8 0#8)[30].toNat * 256 + (frameOf 0#8 0#8)[31].toNat) ∧
    (∃ s : State, s.rxq = (frameOf 0#8 0x42#8).toList ++ [7#8] ∧ (frameOf 0#8 0x42#8)[0] = 0x42#8 ∧
      byteSum ((frameOf 0#8 0x42#8).toList.take 30) % 65536 = (frameOf 0#8 0x42#8)[30].toNat * 256 + (frameOf 0#8 0x42#8)[31].toNat) :=
  ⟨rfl, ⟨base.setRxq [0x43#8], rfl, by decide⟩, ⟨base.setRxq (0x42#8 :: List.replicate 30 0#8), rfl, by decide⟩,
    ⟨base.setRxq (frameOf 0#8 0#8).toList, by decide, by decide, by decide⟩,
    ⟨base.setRxq ((frameOf 0#8 0x42#8).toList ++ [7#8]), by decide, by decide, by decide⟩⟩

theorem witness_GarbageIsPassedOneBytePerPoll :
    ∃ s : State, s.rxq = [0x05#8, 0x43#8] ++ goodFrame 0x4D#8 (Vector.replicate 14 0#16) ++ [] ∧ (∀ b ∈ [0x05#8, 0x43#8], b ≠ 0x42#8) ∧
      s.hphase = .idle ∧ s.sched = List.replicate ([0x05#8, 0x43#8].length + 1) .host ∧
      s.cmds = List.replicate ([0x05#8, 0x43#8].length + 1) (0x40000000#32, 0#32) :=
  ⟨{ queued (List.replicate 3 .host) (List.replicate 3 (0x40000000#32, 0#32)) with
      rxq := [0x05#8, 0x43#8] ++ goodFrame 0x4D#8 (Vector.replicate 14 0#16) ++ [] }, rfl, by decide, rfl, rfl, rfl⟩

theorem witness_FrameRoundTrip : ∃ s : State, s.rxq = goodFrame 0x4D#8 (Vector.replicate 14 0#16) ++ [] := ⟨base.setRxq (_ ++ []), rfl⟩

/-- The good frame of the document's fields is the frame G of section 1.1. -/
theorem test_goodFrame_is_G :
    goodFrame 0x4D#8 #v[28#16, 10#16, 20#16, 30#16, 15#16, 25#16, 35#16, 1#16, 2#16, 3#16, 4#16, 5#16, 6#16, 0#16] = frameG := by decide

theorem witness_ChecksumIsThePlainSum :
    (∃ s t : State, s.rxq = (frameOf 0#8 0x42#8).toList ++ [] ∧ (frameOf 0#8 0x42#8)[0] = 0x42#8 ∧ exec .poll s = .next t) ∧
    byteSum ((frameOf 0#8 0x42#8).toList.take 30) = (frameOf 0#8 0x42#8)[30].toNat * 256 + (frameOf 0#8 0x42#8)[31].toNat ∧
    (List.replicate 30 0xFF#8).length = 30 ∧ (frameOf 0x1E#8 0#8)[0] = 0x42#8 ∧ 0x1D#8 < (frameOf 0x1E#8 0#8)[30] ∧
      ∃ s t : State, s.rxq = (frameOf 0x1E#8 0#8).toList ++ [] ∧ exec .poll s = .next t :=
  ⟨⟨base.setRxq ((frameOf 0#8 0x42#8).toList ++ []), (base.setRxq []).push ⟨.ok, .rrec (frameFields (frameOf 0#8 0x42#8).toList)⟩, rfl,
      by decide, by rfl⟩, by decide,
    by decide, by decide, by decide, base.setRxq ((frameOf 0x1E#8 0#8).toList ++ []), (base.setRxq []).push ⟨.integrity, .r32 0#32⟩, rfl,
    by rfl⟩

theorem witness_SingleBitCorruptionIsNeverARecord :
    (∃ s : State, s.rxq = flipBit (goodFrame 0x4D#8 (Vector.replicate 14 0#16)) (31 : Fin 32).val 7 ++ [1#8]) ∧
      (∃ s : State, s.rxq = flipBit (goodFrame 0x4D#8 (Vector.replicate 14 0#16)) (0 : Fin 32).val 0 ++ []) ∧ (31 : Fin 32) ≠ 0 :=
  ⟨⟨base.setRxq (_ ++ [1#8]), rfl⟩, ⟨base.setRxq (_ ++ []), rfl⟩, by decide⟩

/-- A state in the second wait of INIT, with a response behind it and a host turn ahead. -/
def settling : State :=
  { withCounter 0 armed0 with
    hphase := .settle2, ht0 := 500#32, tbMs := 600#32, sched := [.host], rsps := [⟨.noMatch, .r32 0xFF#32⟩] }

theorem witness_EveryStepKeepsTheInvariant : settling.Inv ∧ settling.hphase = .settle2 ∧ ∃ t, step settling = .next t :=
  ⟨⟨by decide, by decide, fun r hr => by rw [List.mem_singleton.mp hr]; decide⟩, rfl, _, rfl⟩

theorem witness_GuardBitsAreNeverCleared :
    ∃ s t : State, step s = .next t ∧ s.pcs[(0 : Fin nPC)].armed = true ∧ s.wins[(0 : Fin nWin)].started = true ∧
      s.hists[(0 : Fin nHist)].valid = true :=
  ⟨{ rain.setHistogram 0 ⟨Vector.replicate nLevels 0#32, true⟩ with sched := [.host], cmds := [(0x30000000#32, 0#32)] }, _, rfl, rfl, rfl, rfl⟩

theorem witness_OnlyAdvanceMovesTimeAndNothingMovesTheTables :
    (∃ s t : State, step s = .next t ∧ t.tbEdge ≠ s.tbEdge) ∧ ∃ s t : State, step s = .next t ∧ t.tbMs ≠ s.tbMs :=
  ⟨⟨queued [.event 0x20#8 1#32] [], _, rfl, by decide⟩, ⟨queued [.event 0x21#8 1#32] [], _, rfl, by decide⟩⟩

/-- One witness for each clause: an edge, INIT's last phase, its first and its second. -/
theorem witness_CounterFieldsHaveTheirOneWriter :
    (∃ s t : State, step s = .next t ∧ t.pcs[(0 : Fin nPC)].last ≠ s.pcs[(0 : Fin nPC)].last ∧
      t.pcs[(0 : Fin nPC)].count ≠ s.pcs[(0 : Fin nPC)].count) ∧
    (∃ s t : State, step s = .next t ∧ s.hphase = .settle2 ∧ t.pcs[(0 : Fin nPC)].count ≠ s.pcs[(0 : Fin nPC)].count) ∧
    (∃ s t : State, step s = .next t ∧ t.pcs[(0 : Fin nPC)].dbw ≠ s.pcs[(0 : Fin nPC)].dbw) ∧
    (∃ s t : State, step s = .next t ∧ t.pcs[(0 : Fin nPC)].armed ≠ s.pcs[(0 : Fin nPC)].armed) :=
  ⟨⟨{ withCounter 0 armed0 with tbEdge := 6001#32, sched := [.event 0x10#8 0#32] }, _, rfl, by decide, by decide⟩,
    ⟨settling, _, rfl, rfl, by decide⟩,
    ⟨queued [.host] [(0x01000000#32, 5000#32)], _, rfl, by decide⟩,
    ⟨{ queued [.host] [] with hphase := .settle1, tbMs := 100#32 }, _, rfl, by decide⟩⟩

theorem witness_QueueOrderAndEventsStayInTheirUnits :
    (∃ s t : State, step s = .next t ∧ s.sched = .host :: [] ∧ t.rxq = s.rxq.drop 1) ∧
    (∃ s t : State, step s = .next t ∧ s.sched = .event 0x30#8 7#32 :: [] ∧ t.rxq = s.rxq ++ [7#8]) :=
  ⟨⟨{ queued [.host] [(0x40000000#32, 0#32)] with rxq := [0x05#8, 0x42#8] }, _, rfl, rfl, rfl⟩,
    ⟨queued [.event 0x30#8 7#32] [], _, rfl, rfl, rfl⟩⟩

theorem witness_EachCommandAnswersOnceWithAStatusOfItsRow :
    (Instr.init 1#8 7#32).WellFormed ∧ (∃ t, exec (.init 1#8 7#32) base = .next t) ∧ (∃ t, exec (.read 1#8) base = .next t) ∧
      (∃ t, exec (.quant 1#8) base = .next t) ∧ (∃ t, exec (.classify 7#32) base = .next t) ∧
      (∃ t, exec (.record 0#8) base = .next t) ∧ (∃ t, exec (.mode 0#8) base = .next t) ∧ ∃ t, exec .poll base = .next t :=
  ⟨by decide, ⟨_, rfl⟩, ⟨_, rfl⟩, ⟨_, rfl⟩, ⟨_, rfl⟩, ⟨_, rfl⟩, ⟨_, rfl⟩, ⟨_, rfl⟩⟩

theorem witness_QueriesAreIdempotent : ∃ t u, exec (.start 1#8) rain = .next t ∧ exec (.start 1#8) t = .next u := ⟨_, _, rfl, rfl⟩

theorem witness_PrimaryPointsAreFoundFirst :
    (withTables calV scanT).cfg.Admissible ∧
    (∃ t, exec (.classify 528#32) (withTables calV scanT) = .next t ∧
      t.rsps = ⟨.ok, .r32 (BitVec.ofNat 32 (8 : Fin nLevels).val)⟩ :: (withTables calV scanT).rsps) ∧
    (withTables calV scanT).cfg.groups[(8 : Fin nLevels)] = .intercardinal ∧ (withTables calV scanT).cfg.groups[(0 : Fin nLevels)] = .primary :=
  ⟨by decide, ⟨_, rfl, by decide⟩, by decide, by decide⟩

end Sys2Proof.Tests
end

section
/-! SUPPORT and settlement. EDGE of an armed counter as an equation, and R83: the debounce window of zero. -/

namespace Sys2Proof.Machine

open Config

/-- A counter's place in the state and its accessor, the spelling in which the laws of State are stated. -/
theorem State.pcs_getElem (s : State) (i : Fin nPC) : s.pcs[i] = s.counter i := rfl

/-- The meaning of EDGE. -/
theorem exec_edge (e : BitVec 4) (s : State) : exec (.edge e) s = execEdge e s := rfl

/-- EDGE of an armed counter is `onEdge` of that counter at `tb_edge` (R81). -/
theorem exec_edge_of_armed {s : State} {i : Fin nPC} (h : (s.counter i).armed = true) :
    exec (.edge (BitVec.ofNat 4 i.val)) s = .next (s.setCounter i ((s.counter i).onEdge s.tbEdge)) := by
  rw [exec_edge, execEdge, eventCounter_ofNat, State.isArmed_eq, if_pos h]

/-- With a window of zero, the count stays exactly when no time has elapsed (R83). -/
theorem PulseCounter.onEdge_count_of_dbw_zero {c : PulseCounter} (h : c.dbw = 0#32) (now : Time) :
    (c.onEdge now).count = if now = c.last then c.count else c.count + 1#32 := by
  have elapsed_pos_iff : 0#32 < now - c.last ↔ now ≠ c.last := by bv_omega
  simp only [PulseCounter.onEdge_count, h, elapsed_pos_iff, ite_not]

/-- A second edge at the same time is never counted: no window is less than an elapsed time of zero (R81). -/
theorem PulseCounter.onEdge_onEdge_count (c : PulseCounter) (now : Time) :
    ((c.onEdge now).onEdge now).count = (c.onEdge now).count := by
  have not_over : ¬ (c.onEdge now).dbw < now - (c.onEdge now).last := by
    rw [PulseCounter.onEdge_last]
    bv_omega
  rw [PulseCounter.onEdge_count (c.onEdge now), if_neg not_over]

/-- Settles O14: the first edge compares its elapsed time with zero, and leaves `let` at `tb_edge` for the second. -/
theorem zeroWindowStillNeedsElapsedTime : Obligations.ZeroWindowStillNeedsElapsedTime := by
  intro s i armed window
  simp only [State.pcs_getElem] at armed window ⊢
  have still_armed : ((s.setCounter i ((s.counter i).onEdge s.tbEdge)).counter i).armed = true := by
    rw [State.counter_setCounter_self, PulseCounter.onEdge_armed, armed]
  refine ⟨_, exec_edge_of_armed armed, ?_, _, exec_edge_of_armed still_armed, ?_⟩
  · rw [State.counter_setCounter_self]
    exact PulseCounter.onEdge_count_of_dbw_zero window s.tbEdge
  · simp only [State.counter_setCounter_self, State.setCounter_tbEdge, PulseCounter.onEdge_onEdge_count]

end Sys2Proof.Machine
end

section
/-! SUPPORT and settlement. Unit CL: the answers of the lookups and of CLASSIFY as equations, then R127 (the failure sentinels) and R128
(CLASSIFY is a function of the sample for the life of the block). -/

namespace Sys2Proof.Machine

open Config

variable {s t : State} {index raw : Word} {k : Fin nLevels}

/-- An index below 16 names its level (R125). -/
theorem levelOf_of_lt (h : index.toNat < nLevels) : levelOf index = some ⟨index.toNat, h⟩ := dif_pos h

/-- An index of 16 or more names no level (R125). -/
theorem levelOf_of_ge (h : nLevels ≤ index.toNat) : levelOf index = none := dif_neg (Nat.not_lt.mpr h)

/-- The degrees of a level that an index names (R125). -/
theorem exec_idx2deg_of_some (s : State) (h : levelOf index = some k) :
    exec (.idx2deg index) s = .next (s.push ⟨.ok, .r32 s.cfg.cal[k].degrees⟩) := by
  simp [exec, execIdx2deg, h]

/-- IDX2DEG of an index that names no level (R125). -/
theorem exec_idx2deg_of_none (s : State) (h : levelOf index = none) :
    exec (.idx2deg index) s = .next (s.push ⟨.noMatch, .r32 degFail⟩) := by
  simp [exec, execIdx2deg, h]

/-- The label of a level that an index names (R126). -/
theorem exec_idx2lbl_of_some (s : State) (h : levelOf index = some k) :
    exec (.idx2lbl index) s = .next (s.push ⟨.ok, .rtxt s.cfg.cal[k].label⟩) := by
  simp [exec, execIdx2lbl, h]

/-- IDX2LBL of an index that names no level (R126). -/
theorem exec_idx2lbl_of_none (s : State) (h : levelOf index = none) :
    exec (.idx2lbl index) s = .next (s.push ⟨.noMatch, .rtxt lblFail⟩) := by
  simp [exec, execIdx2lbl, h]

/-- The response of CLASSIFY: of the state it reads the tables alone (R122). -/
def classResponse (p : Parameters) (raw : Word) : Response :=
  ⟨(classAnswer (classify p (rawSample raw))).1, .r32 (classAnswer (classify p (rawSample raw))).2⟩

/-- CLASSIFY drives its response and changes nothing else (R122). -/
theorem exec_classify (raw : Word) (s : State) :
    exec (.classify raw) s = .next (s.push (classResponse s.cfg raw)) := rfl

/-- CLASSIFY's NO_MATCH carries `IDX_FAIL` (R122). -/
theorem classAnswer_of_noMatch {found : Option (Fin nLevels)} (h : (classAnswer found).1 = .noMatch) :
    (classAnswer found).2 = idxFailValue := by
  cases found with
  | none => rfl
  | some k => cases h

/-- MODE's NO_MATCH carries `IDX_FAIL` (R145). -/
theorem modeAnswer_of_noMatch {best : Nat} (h : (modeAnswer best).1 = .noMatch) :
    (modeAnswer best).2 = idxFailValue := by
  unfold modeAnswer at h ⊢
  split at h
  · next fails => rw [if_pos fails]
  · cases h

/-- The response in front, by its status and value. -/
theorem push_rsps_eq_cons_iff {st st' : Status} {v v' : Word} :
    (s.push ⟨st, .r32 v⟩).rsps = ⟨st', .r32 v'⟩ :: s.rsps ↔ st = st' ∧ v = v' := by
  simp

/-- The index in CLASSIFY's response of failure is `IDX_FAIL`. -/
theorem exec_classify_noMatch {v : Word} (h : exec (.classify raw) s = .next t)
    (answer : t.rsps = ⟨.noMatch, .r32 v⟩ :: s.rsps) : v = idxFailValue := by
  obtain rfl := execClassify_next h
  obtain ⟨status, value⟩ := push_rsps_eq_cons_iff.mp answer
  rw [← value, classAnswer_of_noMatch status]

/-- The index in MODE's response of failure is `IDX_FAIL`; its PRECOND and its ILLEGAL are no NO_MATCH. -/
theorem exec_mode_noMatch {sel : Byte} {v : Word} (h : exec (.mode sel) s = .next t)
    (answer : t.rsps = ⟨.noMatch, .r32 v⟩ :: s.rsps) : v = idxFailValue := by
  rcases execMode_next h with ⟨i, -, ⟨-, rfl⟩ | ⟨-, rfl⟩⟩ | ⟨-, rfl⟩
  · obtain ⟨status, value⟩ := push_rsps_eq_cons_iff.mp answer
    rw [← value, modeAnswer_of_noMatch status]
  · cases answer
  · cases answer

/-- Settles O37, by whether the index names a level: if it does, the table's admissibility keeps the sentinels out of its record (R129(d)). -/
theorem failureSentinelsAreConsistent : Obligations.FailureSentinelsAreConsistent := by
  rintro s index ⟨-, -, no_sentinel, -⟩
  have failing : ∀ (i : Instr) (t : State) v, (i = .classify index ∨ i = .mode 0#8) → exec i s = .next t →
      t.rsps = ⟨.noMatch, .r32 v⟩ :: s.rsps → 16 ≤ v.toNat ∧ v = 255#32 := by
    intro i t v asks run answer
    have fails : v = idxFailValue := by
      rcases asks with rfl | rfl
      · exact exec_classify_noMatch run answer
      · exact exec_mode_noMatch run answer
    rw [fails]
    decide
  by_cases named : index.toNat < nLevels
  · have level := levelOf_of_lt named
    have inside : ¬ 16 ≤ index.toNat := Nat.not_le.mpr named
    obtain ⟨degrees, label⟩ := no_sentinel ⟨index.toNat, named⟩
    exact ⟨_, _, _, _, exec_idx2deg_of_some s level, rfl, exec_idx2lbl_of_some s level, rfl,
      iff_of_false nofun inside, iff_of_false nofun inside, iff_of_false (fun e => degrees (Payload.r32.inj e)) inside,
      iff_of_false (fun e => label (Payload.rtxt.inj e)) inside, failing⟩
  · have outside : 16 ≤ index.toNat := Nat.not_lt.mp named
    have level := levelOf_of_ge outside
    exact ⟨_, _, _, _, exec_idx2deg_of_none s level, rfl, exec_idx2lbl_of_none s level, rfl,
      iff_of_true rfl outside, iff_of_true rfl outside, iff_of_true rfl outside, iff_of_true rfl outside, failing⟩

/-- The tables stay through every run (R20). -/
theorem runs_cfg {n : Nat} (h : Runs n s t) : t.cfg = s.cfg :=
  runs_invariant (P := fun u => u.cfg = s.cfg) (fun _ _ same h => (step_cfg h).trans same) h rfl

/-- Settles O38: CLASSIFY's response depends on the tables alone, and no run writes them. -/
theorem classifyIsAFunctionForTheLifeOfTheBlock : Obligations.ClassifyIsAFunctionForTheLifeOfTheBlock := by
  intro n s t raw run
  refine ⟨_, _, _, exec_classify raw s, rfl, exec_classify raw t, ?_⟩
  rw [State.push_rsps, runs_cfg run]

end Sys2Proof.Machine
end

section
/-! SUPPORT and settlement. Unit DN: MODE of a created histogram as an equation, the two outcomes of its scan, and R146. -/

namespace Sys2Proof.Machine

open Config

variable {s : State} {x : Histogram} {k : Fin nLevels}

/-- The meaning of MODE. -/
theorem exec_mode (sel : Byte) (s : State) : exec (.mode sel) s = execMode sel s := rfl

/-- MODE of a histogram that HNEW has created drives its answer and changes nothing else (R145). -/
theorem exec_mode_of_valid {i : Fin nHist} (valid : (s.histogram i).valid = true) :
    exec (.mode (BitVec.ofNat 8 i.val)) s =
      .next (s.push ⟨(modeAnswer (s.histogram i).mode).1, .r32 (modeAnswer (s.histogram i).mode).2⟩) := by
  rw [exec_mode, execMode, selected_ofNat i (by decide), State.isValid_eq, valid, guarded_true, respond_eq]

/-- The answer of a scan that found a level: no level's index is `IDX_FAIL` (R145). -/
theorem modeAnswer_val (k : Fin nLevels) : modeAnswer k.val = (.ok, BitVec.ofNat 32 k.val) :=
  if_neg (Nat.ne_of_lt (k.isLt.trans (by decide : nLevels < idxFail.toNat)))

/-- The answer of a scan that found nothing (R145). -/
theorem modeAnswer_idxFail : modeAnswer idxFail.toNat = (.noMatch, idxFailValue) := if_pos rfl

/-- The scan finds the first of the greatest buckets, if that one is not zero: the buckets before it are less, those after it at most equal (R146). -/
theorem Histogram.mode_of_first_greatest (nonzero : x.buckets[k] ≠ 0#32)
    (greatest : ∀ j : Fin nLevels, x.buckets[j] ≤ x.buckets[k])
    (first : ∀ j : Fin nLevels, j < k → x.buckets[j] < x.buckets[k]) : x.mode = k.val := by
  have in_range : k.val < x.buckets.toList.length := by simp
  have around : x.buckets.toList = x.buckets.toList.take k.val ++ x.buckets[k] :: x.buckets.toList.drop (k.val + 1) := by
    rw [Fin.getElem_fin, ← Vector.getElem_toList in_range, ← List.drop_eq_getElem_cons in_range, List.take_append_drop]
  have before : ∀ c ∈ x.buckets.toList.take k.val, c < x.buckets[k] := by
    intro c hc
    obtain ⟨j, hj, rfl⟩ := List.mem_take_iff_getElem.mp hc
    have below : j < k.val := by omega
    exact first ⟨j, below.trans k.isLt⟩ below
  have after : ∀ c ∈ x.buckets.toList.drop (k.val + 1), c ≤ x.buckets[k] := by
    intro c hc
    obtain ⟨j, hj, rfl⟩ := List.mem_iff_getElem.mp (List.mem_of_mem_drop hc)
    exact greatest ⟨j, by simpa using hj⟩
  have positive : 0#32 < x.buckets[k] := (BitVec.pos_iff_ne_zero _).mpr nonzero
  rw [Histogram.mode, around, scanMode_first _ _ _ _ _ _ before positive after, List.length_take_of_le in_range.le, Nat.zero_add]

/-- The scan of a histogram of zeros never replaces `IDX_FAIL` (R146). -/
theorem Histogram.mode_of_all_zero (zero : ∀ k : Fin nLevels, x.buckets[k] = 0#32) : x.mode = idxFail.toNat := by
  refine scanMode_keep _ _ _ _ fun c hc => ?_
  obtain ⟨j, hj, rfl⟩ := Vector.mem_iff_getElem.mp (Vector.mem_toList_iff.mp hc)
  rw [show x.buckets[j] = 0#32 from zero ⟨j, hj⟩]
  exact BitVec.lt_irrefl _

/-- Settles O41, by what the scan of the valid histogram finds in each of the two cases. -/
theorem modeIsTheLowestIndexOfTheGreatestCount : Obligations.ModeIsTheLowestIndexOfTheGreatestCount := by
  intro s valid
  have answer : exec (.mode 0#8) s = _ := exec_mode_of_valid (i := 0) valid
  constructor
  · intro k nonzero greatest first
    have found : (s.histogram 0).mode = k.val := Histogram.mode_of_first_greatest nonzero greatest first
    rw [answer, found, modeAnswer_val]
    rfl
  · intro zero
    have nothing : (s.histogram 0).mode = idxFail.toNat := Histogram.mode_of_all_zero zero
    rw [answer, nothing, modeAnswer_idxFail]
    rfl

end Sys2Proof.Machine
end

section
/-! SUPPORT and settlement. Unit FD: POLL as an equation at each of its steps, the checksum test on plain numbers, and R162. -/

namespace Sys2Proof.Machine

open Config

variable {s : State} {b rest : List Byte} {x : Byte}

/-- The meaning of POLL. -/
theorem exec_poll (s : State) : exec .poll s = execPoll s := rfl

/-- Step 1 of POLL: an empty queue (R162). -/
theorem execPoll_of_empty (queue : s.rxq = []) : execPoll s = .next (s.push ⟨.notReady, .r32 0#32⟩) :=
  if_pos (congrArg List.length queue)

/-- The queue's primitives on a queue with a head. -/
theorem State.rxPrimitives_of_cons (queue : s.rxq = x :: rest) : s.rxAvail ≠ 0 ∧ s.rxPeek = some x ∧ s.rxConsume 1 = s.setRxq rest := by
  simp [State.rxAvail, State.rxPeek, State.rxConsume, queue]

/-- Step 2 of POLL: a head that is not the sentinel goes (R162). -/
theorem execPoll_of_garbage (queue : s.rxq = x :: rest) (garbage : x ≠ sentinel) :
    execPoll s = .next ((s.setRxq rest).push ⟨.notReady, .r32 0#32⟩) := by
  obtain ⟨nonempty, peek, consumed⟩ := State.rxPrimitives_of_cons queue
  have not_sentinel : s.rxPeek ≠ some sentinel := by simpa [peek] using garbage
  rw [execPoll, if_neg nonempty, if_pos not_sentinel, consumed, respond_eq]

/-- Step 3 of POLL: a sentinel with fewer than `FRAME_LEN` bytes waits (R162). -/
theorem execPoll_of_short (queue : s.rxq = sentinel :: rest) (short : s.rxq.length < frameLen) :
    execPoll s = .next (s.push ⟨.notReady, .r32 0#32⟩) := by
  obtain ⟨nonempty, peek, -⟩ := State.rxPrimitives_of_cons queue
  rw [execPoll, if_neg nonempty, if_neg (not_not_intro peek), if_pos (show s.rxAvail < frameLen from short), respond_eq]

/-- Past step 3 of POLL: a whole frame behind the sentinel is consumed and judged (R162). -/
theorem execPoll_of_frame (queue : s.rxq = b ++ rest) (whole : b.length = frameLen) (head : b.head? = some sentinel) :
    execPoll s = acceptFrame b (s.setRxq rest) := by
  have avail : s.rxAvail = frameLen + rest.length := by rw [State.rxAvail, queue, List.length_append, whole]
  have nonempty : s.rxAvail ≠ 0 := by rw [avail, frameLen]; omega
  have enough : ¬ s.rxAvail < frameLen := by omega
  have peek : s.rxPeek = some sentinel := by rw [State.rxPeek, queue, List.head?_append, head, Option.some_or]
  have taken : s.rxTaken frameLen = b := by rw [State.rxTaken, queue, List.take_left' whole]
  have consumed : s.rxConsume frameLen = s.setRxq rest := by rw [State.rxConsume, queue, List.drop_left' whole]
  rw [execPoll, if_neg nonempty, if_neg (not_not_intro peek), if_neg enough, taken, consumed]

/-- Step 4 of POLL: a wrong checksum (R162). -/
theorem acceptFrame_of_ne (wrong : frameSum b ≠ frameField b 14) :
    acceptFrame b s = .next (s.push ⟨.integrity, .r32 0#32⟩) := if_pos wrong

/-- Step 5 of POLL: the record of a frame with its checksum (R162). -/
theorem acceptFrame_of_eq (right : frameSum b = frameField b 14) :
    acceptFrame b s = .next (s.push ⟨.ok, .rrec (frameFields b)⟩) := if_neg (not_not_intro right)

/-- A byte of a frame read by its number. -/
theorem frameByte_getD (b : Vector Byte 32) {n : Nat} (h : n < 32) : b.toList.getD n 0#8 = b[n] := by
  rw [List.getD_eq_getElem _ _ (by simpa using h), Vector.getElem_toList]

/-- Field `j` of a frame is the big-endian value of its two bytes (R163). -/
theorem frameField_toNat (b : Vector Byte 32) (j : Fin 15) :
    (frameField b.toList j).toNat =
      (b[2 + 2 * j.val]'(by omega)).toNat * 256 + (b[3 + 2 * j.val]'(by omega)).toNat := by
  rw [frameField, bigEndian_toNat, frameByte_getD, frameByte_getD]

/-- The fields of a frame as numbers (R163). -/
theorem frameFields_eq_ofFn (b : Vector Byte 32) :
    frameFields b.toList = Vector.ofFn fun j : Fin 15 =>
      BitVec.ofNat 16 ((b[2 + 2 * j.val]'(by omega)).toNat * 256 + (b[3 + 2 * j.val]'(by omega)).toNat) := by
  simp only [frameFields, ← frameField_toNat, BitVec.ofNat_toNat, BitVec.setWidth_eq]

/-- POLL's checksum test on plain numbers: the sum of the first thirty bytes modulo 65536 is the last field (R162, R167). -/
theorem frameSum_eq_iff (b : Vector Byte 32) :
    frameSum b.toList = frameField b.toList 14 ↔
      byteSum (b.toList.take sumLen) % 65536 = b[30].toNat * 256 + b[31].toNat := by
  rw [← BitVec.toNat_inj, frameSum, sum16_toNat, frameField_toNat]
  rfl

/-- Settles O44, clause by clause: each premise selects its step of POLL. -/
theorem pollTakesItsFiveSteps : Obligations.PollTakesItsFiveSteps := by
  intro s
  simp only [exec_poll]
  refine ⟨execPoll_of_empty, fun x rest => execPoll_of_garbage, fun rest => execPoll_of_short, ?_⟩
  intro b rest queue head
  have head_is_sentinel : b.toList.head? = some sentinel := by
    rw [List.head?_eq_getElem?, Vector.getElem?_toList, Vector.getElem?_eq_getElem (by decide), head]
    rfl
  rw [execPoll_of_frame queue b.length_toList head_is_sentinel]
  constructor
  · intro wrong
    exact acceptFrame_of_ne (mt (frameSum_eq_iff b).mp wrong)
  · intro right
    rw [← frameFields_eq_ofFn]
    exact acceptFrame_of_eq ((frameSum_eq_iff b).mpr right)

end Sys2Proof.Machine
end

section
/-! SUPPORT and settlement. The encodings: a word and its fields determine each other, what an accepted packet is and what its fields say of a
rejected one; then the statements about decoding (R62, R65, R70). -/

namespace Sys2Proof

open Config

variable {cw arg ep : Word} {ev : Byte} {i : Instr}

@[simp] theorem opField_commandWord (op : Op) (sel : Byte) : opField (commandWord op sel) = op.code := by
  rw [opField, commandWord, BitVec.extractLsb'_append_eq_of_le (by decide)]
  exact BitVec.extractLsb'_append_eq_left

@[simp] theorem selField_commandWord (op : Op) (sel : Byte) : selField (commandWord op sel) = sel := by
  rw [selField, commandWord, BitVec.extractLsb'_append_eq_of_le (by decide)]
  exact BitVec.extractLsb'_append_eq_right

@[simp] theorem rsvField_commandWord (op : Op) (sel : Byte) : rsvField (commandWord op sel) = 0#16 :=
  BitVec.extractLsb'_append_eq_right

/-- A command word is its three fields (R61). -/
theorem commandWord_fields (op : Op) (opcode : opField cw = op.code) (rsv : rsvField cw = 0#16) :
    commandWord op (selField cw) = cw := by
  have upper : opField cw ++ selField cw = cw.extractLsb' 16 16 :=
    BitVec.extractLsb'_append_extractLsb'_eq_extractLsb' (start₂ := 24) (start₁ := 16) rfl
  have whole : cw.extractLsb' 16 16 ++ rsvField cw = cw.extractLsb' 0 32 :=
    BitVec.extractLsb'_append_extractLsb'_eq_extractLsb' (start₂ := 16) (start₁ := 0) rfl
  rw [commandWord, ← opcode, ← rsv, upper, whole, BitVec.extractLsb'_eq_self]

@[simp] theorem kindField_eventCode (kind esel : BitVec 4) : kindField (eventCode kind esel) = kind :=
  BitVec.extractLsb'_append_eq_left

@[simp] theorem eselField_eventCode (kind esel : BitVec 4) : eselField (eventCode kind esel) = esel :=
  BitVec.extractLsb'_append_eq_right

@[simp] theorem Op.ofCode_code (op : Op) : Op.ofCode op.code = some op := by
  cases op <;> rfl

/-- One row of R62's table: if its code is the byte it gives the opcode, else the rows below do. -/
theorem Op.code_of_row {c x : Byte} {o op : Op} {below : Option Op} (h : (if c = x then some o else below) = some op)
    (row : x = o.code) (rows_below : below = some op → c = op.code) : c = op.code := by
  split at h
  · next code => rw [code, row, Option.some.inj h]
  · exact rows_below h

/-- A byte that selects an opcode is its code (R62, R71). -/
theorem Op.ofCode_eq_some {c : Byte} {op : Op} (h : Op.ofCode c = some op) : c = op.code := by
  unfold Op.ofCode at h
  iterate 11 refine Op.code_of_row h rfl fun h => ?_
  cases h

/-- A command word whose selector is legal for its row decodes to the row's instruction (R62, R63). -/
theorem decode_commandWord {op : Op} {sel : Byte} (legal : sel.toNat < op.selCount) (arg : Word) :
    decode (.cmd (commandWord op sel) arg) = .ok (op.instr sel arg) := by
  show decodeCommand (commandWord op sel) arg = _
  simp [decodeCommand, legal]

/-- Everything an accepted command is: a command word with a legal selector, and the row's instruction (R62, R70). -/
theorem decode_cmd_ok (h : decode (.cmd cw arg) = .ok i) :
    ∃ (op : Op) (sel : Byte), cw = commandWord op sel ∧ sel.toNat < op.selCount ∧ i = op.instr sel arg := by
  simp only [decode, decodeCommand] at h
  split at h
  · cases h
  next op opcode =>
  split at h
  · cases h
  next rsv =>
  split at h
  · next legal =>
    cases h
    exact ⟨op, _, (commandWord_fields op (Op.ofCode_eq_some opcode) (by simpa using rsv)).symm, legal, rfl⟩
  · cases h

/-- A legal selector makes a well-formed instruction. -/
theorem Op.instr_wellFormed {op : Op} {sel : Byte} (legal : sel.toNat < op.selCount) (arg : Word) :
    (op.instr sel arg).WellFormed := by
  cases op
  case classify | idx2deg | idx2lbl | poll => rfl
  all_goals exact decide_eq_true legal

/-- The encoding of a row's instruction: the command word, and the argument or, where the row ignores it, 0 (log 24). -/
theorem encode_instr {op : Op} {sel : Byte} (legal : sel.toNat < op.selCount) (arg : Word) :
    ∃ a, encode (op.instr sel arg) = .cmd (commandWord op sel) a ∧ (a = arg ∨ a = 0#32) := by
  cases op
  case init => exact ⟨_, rfl, .inl rfl⟩
  case read | start | quant | hnew | record | mode => exact ⟨_, rfl, .inr rfl⟩
  all_goals obtain rfl : sel = 0#8 := BitVec.eq_of_toNat_eq (Nat.lt_one_iff.mp legal)
  case classify | idx2deg | idx2lbl => exact ⟨_, rfl, .inl rfl⟩
  case poll => exact ⟨_, rfl, .inr rfl⟩

/-- A byte's payload has zeros above the byte (R64). -/
theorem byte_payload (b : Byte) : b.setWidth 32 = 0#24 ++ b :=
  BitVec.setWidth_eq_append (by decide)

theorem byte_payload_fields (b : Byte) :
    (b.setWidth 32).extractLsb' 8 24 = 0#24 ∧ (b.setWidth 32).extractLsb' 0 8 = b := by
  rw [byte_payload]
  exact ⟨BitVec.extractLsb'_append_eq_left, BitVec.extractLsb'_append_eq_right⟩

/-- A payload with zeros above its lowest byte is that byte's (R64). -/
theorem byte_of_payload (upper : ep.extractLsb' 8 24 = 0#24) : (ep.extractLsb' 0 8).setWidth 32 = ep := by
  rw [byte_payload, ← upper]
  exact (BitVec.extractLsb'_append_extractLsb'_eq_extractLsb' rfl).trans BitVec.extractLsb'_eq_self

/-- The payload of an accepted RXBYTE (R64). -/
theorem decode_rxbyte_ok {b : Byte} (h : decode (.evt ev ep) = .ok (.rxbyte b)) : b.setWidth 32 = ep := by
  simp only [decode, decodeEvent] at h
  repeat' split at h
  all_goals cases h
  next upper => exact byte_of_payload (by simpa using upper)

/-- Everything an accepted event is, word and payload (R64, R65). -/
theorem decode_evt_ok (h : decode (.evt ev ep) = .ok i) :
    (∃ k : Fin nPC, ev = Machine.edgeCode k ∧ i = .edge (BitVec.ofNat 4 k.val)) ∨
      (ev = 0x20#8 ∧ i = .advance .edge ep) ∨ (ev = 0x21#8 ∧ i = .advance .ms ep) ∨
      ∃ b : Byte, ev = 0x30#8 ∧ b.setWidth 32 = ep ∧ i = .rxbyte b := by
  obtain ⟨p, code⟩ := Machine.decodeEvent_code h
  rcases Machine.decodeEvent_ok h with ⟨k, rfl⟩ | ⟨b, rfl⟩ | ⟨b, rfl⟩
  · cases code
    exact .inl ⟨k, rfl, rfl⟩
  · cases b <;> cases code
    · exact .inr (.inl ⟨rfl, rfl⟩)
    · exact .inr (.inr (.inl ⟨rfl, rfl⟩))
  · cases code
    exact .inr (.inr (.inr ⟨b, rfl, decode_rxbyte_ok h, rfl⟩))

/-- What the decoder accepts is well formed. -/
theorem decode_wellFormed {p : Packet} (h : decode p = .ok i) : i.WellFormed := by
  cases p with
  | cmd cw arg =>
    obtain ⟨op, sel, -, legal, rfl⟩ := decode_cmd_ok h
    exact Op.instr_wellFormed legal arg
  | evt ev ep =>
    rcases decode_evt_ok h with ⟨k, -, rfl⟩ | ⟨-, rfl⟩ | ⟨-, rfl⟩ | ⟨b, -, -, rfl⟩
    · exact (by decide : ∀ k : Fin nPC, (Instr.edge (BitVec.ofNat 4 k.val)).WellFormed) k
    all_goals rfl

/-- Settles O1, by the row of the instruction: the fields of its word are the ones it was written from. -/
theorem decodeOfEncodeGivesTheInstruction : Obligations.DecodeOfEncodeGivesTheInstruction := by
  intro i legal
  cases i
  case init | read | start | quant | hnew | record | mode => exact decode_commandWord (by exact of_decide_eq_true legal) _
  case classify | idx2deg | idx2lbl | poll => exact decode_commandWord (by decide) _
  case edge e =>
    have bound : e.toNat < nPC := of_decide_eq_true legal
    show decodeEvent (eventCode 1#4 e) 0#32 = _
    rw [decodeEvent, kindField_eventCode, eselField_eventCode, if_pos rfl, if_pos bound]
  case advance which n =>
    show decodeEvent (eventCode 2#4 which.esel) n = _
    rw [decodeEvent, kindField_eventCode, eselField_eventCode, if_neg (by decide), if_pos rfl]
    cases which <;> rfl
  case rxbyte b =>
    obtain ⟨upper, lower⟩ := byte_payload_fields b
    show decodeEvent (eventCode 3#4 0#4) (b.setWidth 32) = _
    rw [decodeEvent, kindField_eventCode, eselField_eventCode, if_neg (by decide), if_neg (by decide), if_pos rfl,
      if_neg (not_not_intro rfl), if_neg (not_not_intro upper), lower]

/-- Settles O2, from everything an accepted packet is. -/
theorem acceptedWordsAreEncodings : Obligations.AcceptedWordsAreEncodings := by
  refine ⟨fun p i => decode_wellFormed, ?_, ?_⟩
  · intro cw arg i h
    obtain ⟨op, sel, rfl, legal, rfl⟩ := decode_cmd_ok h
    exact encode_instr legal arg
  · intro ev ep i h
    rcases decode_evt_ok h with ⟨k, rfl, rfl⟩ | ⟨rfl, rfl⟩ | ⟨rfl, rfl⟩ | ⟨b, rfl, rfl, rfl⟩
    · exact ⟨_, rfl, .inr rfl⟩
    all_goals exact ⟨_, rfl, .inl rfl⟩

/-- Settles O3: eight words with their fields written out. -/
theorem sampleWordsDecode : Obligations.SampleWordsDecode :=
  ⟨rfl, rfl, rfl, rfl, rfl, rfl, rfl, rfl⟩

end Sys2Proof
end

section
/-! SUPPORT and settlement. Steps: every way a step can end, as an inductive proposition; which terms have a meaning; what a rejected packet does
(R46, R70, R211). -/

namespace Sys2Proof.Machine

open Config

variable {s t : State} {i : Instr} {cw arg ep : Word} {ev : Byte} {rest : List Turn} {l : List (Word × Word)}

/-- INIT's last phase as a state (R89). -/
def initCleared (s : State) : State :=
  ((s.setCounter s.hsel { s.counter s.hsel with count := 0#32 }).setSequencer .idle s.hsel s.ht0).push ⟨.ok, .r32 0#32⟩

theorem initClear_next (s : State) : initClear s = .next (initCleared s) := rfl

/-- Every way a step can end in a next state: a turn that passes, a command executed or illegal, INIT's second or third phase, an event. -/
inductive Stepped (s t : State) : Prop
  | passed (later : List Turn) (after : t = s.setSched later)
  | issued {cw arg : Word} {left : List (Word × Word)} {later : List Turn} {j : Instr} (turn : s.sched = .host :: later)
      (idle : s.hphase = .idle) (accepted : decode (.cmd cw arg) = .ok j)
      (run : exec j ((s.setSched later).setCmds left) = .next t)
  | illegal {left : List (Word × Word)} {later : List Turn} (turn : s.sched = .host :: later) (idle : s.hphase = .idle)
      (after : t = ((s.setSched later).setCmds left).push ⟨.illegal, .r32 0#32⟩)
  | armed {later : List Turn} (turn : s.sched = .host :: later) (phase : s.hphase = .settle1)
      (after : t = initArm (s.setSched later))
  | cleared {later : List Turn} (turn : s.sched = .host :: later) (phase : s.hphase = .settle2)
      (after : t = initCleared (s.setSched later))
  | delivered {code : Byte} {payload : Word} {later : List Turn} {j : Instr} (turn : s.sched = .event code payload :: later)
      (accepted : decode (.evt code payload) = .ok j) (run : exec j (s.setSched later) = .next t)

theorem step_stepped (h : step s = .next t) : Stepped s t := by
  rcases step_next h with ⟨none, rfl⟩ | ⟨rest, turn, h⟩ | ⟨ev, ep, rest, i, turn, accepted, run⟩
  · exact .passed t.sched rfl
  · rcases hostTurn_next h with rfl | ⟨idle, cw, arg, l, -, ⟨i, accepted, run⟩ | ⟨-, -, after⟩⟩ | ⟨phase, -, after⟩ |
      ⟨phase, -, after⟩
    · exact .passed rest rfl
    · exact .issued turn idle accepted run
    · exact .illegal turn idle after
    · exact .armed turn phase after
    · rw [initClear_next] at after
      cases after
      exact .cleared turn phase rfl
  · exact .delivered turn accepted run

/-! ### What a turn does with a packet -/

/-- A host's turn outside INIT with a command that is accepted (R60). -/
theorem step_command (turn : s.sched = .host :: rest) (idle : s.hphase = .idle) (command : s.cmds = (cw, arg) :: l)
    (accepted : decode (.cmd cw arg) = .ok i) : step s = exec i ((s.setSched rest).setCmds l) := by
  rw [step_host turn, hostTurn_issue (s := s.setSched rest) idle command, issue_ok accepted]

/-- A host's turn outside INIT with a command that is rejected (R70). -/
theorem step_illegal (turn : s.sched = .host :: rest) (idle : s.hphase = .idle) (command : s.cmds = (cw, arg) :: l)
    (rejected : ∀ i, decode (.cmd cw arg) ≠ .ok i) :
    step s = .next (((s.setSched rest).setCmds l).push ⟨.illegal, .r32 0#32⟩) := by
  cases d : decode (.cmd cw arg) with
  | ok i => exact absurd d (rejected i)
  | error r => rw [step_host turn, hostTurn_issue (s := s.setSched rest) idle command, issue_error d]

/-- An event's turn with a word that is rejected (R70). -/
theorem step_nonEvent (turn : s.sched = .event ev ep :: rest) (rejected : ∀ i, decode (.evt ev ep) ≠ .ok i) :
    step s = .refused .notAnEvent := by
  cases d : decode (.evt ev ep) with
  | ok i => exact absurd d (rejected i)
  | error r => simp [step, nextTurn, takeTurn, eventTurn, turn, d]

/-- Settles O4. -/
theorem stepRunsTheDecodedCommand : Obligations.StepRunsTheDecodedCommand := by
  intro s cw arg l rest i turn idle command accepted
  exact step_command turn idle command accepted

/-- Settles O5. -/
theorem stepRunsTheDecodedEvent : Obligations.StepRunsTheDecodedEvent := by
  intro s ev ep rest i turn accepted
  exact step_event turn accepted

/-- Settles O6. -/
theorem nothingHappensByItself : Obligations.NothingHappensByItself := by
  refine ⟨fun s => step_nil, ?_⟩
  intro s rest turn idle none
  rw [step_host turn, hostTurn_pass (s := s.setSched rest) idle none]
  rfl

/-- Settles O7: placing puts the packet's turn at the head of the schedule, and a command's word at the head of the host's list. -/
theorem placedWordRunsNext : Obligations.PlacedWordRunsNext := by
  intro s nbits w i h
  unfold State.withFetchWord
  unfold decodeTableWord at h
  generalize packetOf nbits w = p at h ⊢
  have accepted : decode p = .ok i := by
    split at h
    · next d => rw [d, Option.some.inj h]
    · cases h
  cases p with
  | cmd cw arg => exact step_command rfl rfl rfl accepted
  | evt ev ep => exact step_event rfl accepted

/-- The opcode and the selector count of R62's rows, as R70 is stated. -/
theorem opcode_row (op : Op) :
    op.code ∈ [0x01#8, 0x02#8, 0x10#8, 0x11#8, 0x20#8, 0x21#8, 0x22#8, 0x30#8, 0x31#8, 0x32#8, 0x40#8] ∧
      op.selCount = if op.code ∈ [0x01#8, 0x02#8, 0x10#8, 0x11#8] then 2 else 1 := by
  cases op <;> decide

/-- Settles O8: an accepted command has its opcode in the table, its reserved field zero and its selector inside the row's count. -/
theorem illegalCommandChangesNothing : Obligations.IllegalCommandChangesNothing := by
  intro s cw arg l rest turn idle command fault
  refine step_illegal turn idle command fun i accepted => ?_
  obtain ⟨op, sel, rfl, legal, -⟩ := decode_cmd_ok accepted
  obtain ⟨assigned, count⟩ := opcode_row op
  have opcode : (commandWord op sel).extractLsb' 24 8 = op.code := opField_commandWord op sel
  have selector : (commandWord op sel).extractLsb' 16 8 = sel := selField_commandWord op sel
  have rsv : (commandWord op sel).extractLsb' 0 16 = 0#16 := rsvField_commandWord op sel
  rw [opcode, selector, rsv, ← count] at fault
  rcases fault with unassigned | reserved | range
  · exact unassigned assigned
  · exact reserved rfl
  · omega

/-- Settles O9: an accepted event has kind 1, 2 or 3 and a selector that is legal for it. -/
theorem nonEventsAreRefused : Obligations.NonEventsAreRefused := by
  intro s ev ep rest turn fault
  refine step_nonEvent turn fun i accepted => ?_
  rcases decode_evt_ok accepted with ⟨k, rfl, -⟩ | ⟨rfl, -⟩ | ⟨rfl, -⟩ | ⟨b, rfl, -, -⟩
  · match k with
    | 0 | 1 => exact absurd fault (by decide)
  all_goals exact absurd fault (by decide)

/-! ### Every well-formed instruction has a meaning -/

/-- The commands with a selector, each as the body it runs on the record picked (R45). -/
theorem exec_init (sel : Byte) (w : Time) (s : State) :
    exec (.init sel w) s = selected nPC sel s fun k => .next (initConfigure k w s) := rfl
theorem exec_read (sel : Byte) (s : State) :
    exec (.read sel) s = selected nPC sel s fun k => respond .ok (countValue (s.counter k).count) s := rfl
theorem exec_start (sel : Byte) (s : State) :
    exec (.start sel) s = selected nWin sel s fun w =>
      respond .ok 0#32 (s.setWindow w ((s.window w).restarted (winKind w) (s.counter (winCtr w)).count s.tbMs)) := rfl
theorem exec_quant (sel : Byte) (s : State) :
    exec (.quant sel) s = selected nWin sel s fun w =>
      guarded (s.isStarted w) s (respond (s.quantity w).1 (s.quantity w).2 s) := rfl
theorem exec_hnew (sel : Byte) (s : State) :
    exec (.hnew sel) s = selected nHist sel s fun h => respond .ok 0#32 (s.setHistogram h Histogram.fresh) := rfl
theorem exec_record (sel : Byte) (s : State) :
    exec (.record sel) s = selected nHist sel s fun h =>
      guarded (s.isValid h) s (respond .ok 0#32
        (s.adcAdvance.setHistogram h ((s.histogram h).recorded (classify s.cfg (rawSample s.adcAnswer))))) := rfl

/-- A selected command ends in a next state if its body always does. -/
theorem selected_total {n : Nat} (sel : Byte) (s : State) {f : Fin n → Out} (total : ∀ k, ∃ t, f k = .next t) :
    ∃ t, selected n sel s f = .next t := by
  by_cases legal : sel.toNat < n
  · rw [selected_of_lt legal]
    exact total _
  · rw [selected_of_ge (Nat.not_lt.mp legal)]
    exact ⟨_, rfl⟩

/-- A guarded command ends in a next state if its body does. -/
theorem guarded_total (bit : Bool) (s : State) {o : Out} (total : ∃ t, o = .next t) : ∃ t, guarded bit s o = .next t := by
  cases bit
  · exact ⟨_, rfl⟩
  · exact total

/-- POLL always ends in a next state (R162). -/
theorem execPoll_total (s : State) : ∃ t, execPoll s = .next t := by
  unfold execPoll acceptFrame
  repeat' split
  all_goals exact ⟨_, rfl⟩

/-- Only an EDGE of no counter is without a next state. -/
theorem exec_total (legal : i.WellFormed) (s : State) : ∃ t, exec i s = .next t := by
  cases i with
  | init sel | read sel | start sel | hnew sel =>
    simp only [exec_init, exec_read, exec_start, exec_hnew]
    exact selected_total sel s fun _ => ⟨_, rfl⟩
  | quant sel | record sel | mode sel =>
    simp only [exec_quant, exec_record, exec_mode, execMode]
    exact selected_total sel s fun _ => guarded_total _ s ⟨_, rfl⟩
  | classify | advance | rxbyte => exact ⟨_, rfl⟩
  | idx2deg index =>
    cases level : levelOf index with
    | some k => exact ⟨_, exec_idx2deg_of_some s level⟩
    | none => exact ⟨_, exec_idx2deg_of_none s level⟩
  | idx2lbl index =>
    cases level : levelOf index with
    | some k => exact ⟨_, exec_idx2lbl_of_some s level⟩
    | none => exact ⟨_, exec_idx2lbl_of_none s level⟩
  | poll => exact execPoll_total s
  | edge e => exact ⟨_, dif_pos (of_decide_eq_true legal)⟩

/-- A command on the port is never refused (R70, R181). -/
theorem issue_total (cw arg : Word) (s : State) : ∃ t, issue cw arg s = .next t := by
  cases d : decode (.cmd cw arg) with
  | ok i =>
    rw [issue_ok d]
    exact exec_total (decode_wellFormed d) s
  | error r => exact ⟨_, issue_error d⟩

/-- The host's turn is never refused (R181). -/
theorem hostTurn_total (s : State) : ∃ t, hostTurn s = .next t := by
  unfold hostTurn
  split
  · split
    · exact ⟨_, rfl⟩
    · exact issue_total _ _ _
  · split <;> exact ⟨_, rfl⟩
  · split <;> exact ⟨_, rfl⟩

/-- Settles O10: the host's turn and an accepted event both end in a next state, so a refusal is a rejected event. -/
theorem theMachineGoesOn : Obligations.TheMachineGoesOn := by
  refine ⟨fun i => exec_total, ?_⟩
  intro s r refused
  cases turn : s.sched with
  | nil =>
    rw [step_nil turn] at refused
    cases refused
  | cons now rest =>
    cases now with
    | host =>
      obtain ⟨t, goes_on⟩ := hostTurn_total (s.setSched rest)
      rw [step_host turn, goes_on] at refused
      cases refused
    | event ev ep =>
      cases d : decode (.evt ev ep) with
      | ok i =>
        obtain ⟨t, goes_on⟩ := exec_total (decode_wellFormed d) (s.setSched rest)
        rw [step_event turn d, goes_on] at refused
        cases refused
      | error e =>
        rw [step_nonEvent turn (by simp [d])] at refused
        cases refused
        exact ⟨rfl, ev, ep, rest, e, rfl, d⟩

/-- Settles O11: selectors outside the counters, windows and histograms (R70). -/
theorem illFormedTermsHaveNoEffect : Obligations.IllFormedTermsHaveNoEffect := by
  refine ⟨?_, ?_, ?_⟩
  · intro s sel w outside
    simp only [exec_init, exec_read, exec_start, exec_quant, selected_of_ge outside]
    exact ⟨rfl, rfl, rfl, rfl⟩
  · intro s sel outside
    simp only [exec_hnew, exec_record, exec_mode, execMode, selected_of_ge outside]
    exact ⟨rfl, rfl, rfl⟩
  · intro s e outside
    rw [exec_edge, execEdge, eventCounter_of_ge outside]

end Sys2Proof.Machine
end

section
/-! SUPPORT and settlement. What every step keeps: the invariant (R88, R129, R180) and the guard bits (R25), first of an instruction, then of every
way a step can end. -/

namespace Sys2Proof.Machine

open Config

variable {s t : State} {i : Instr}

/-! ### The invariant -/

/-- No instruction disarms a counter (R25). -/
theorem exec_keeps_armed (h : exec i s = .next t) {k : Fin nPC} (armed : (s.counter k).armed = true) :
    (t.counter k).armed = true := by
  rcases exec_counter h k with same | ⟨-, -, edge⟩ | ⟨_, _, -, -, -, configured⟩
  · rw [same, armed]
  · rw [edge, PulseCounter.onEdge_armed, armed]
  · rw [configured, armed]

/-- An instruction that leaves the host in INIT's second wait found it there, on the same counter. -/
theorem exec_settling (h : exec i s = .next t) (phase : t.hphase = .settle2) : s.hphase = .settle2 ∧ t.hsel = s.hsel := by
  rcases (exec_writes h).sequencer with ⟨same, sel, -⟩ | ⟨_, _, -, first⟩
  · exact ⟨same ▸ phase, sel⟩
  · rw [first] at phase
    cases phase

/-- One lawful response more leaves all lawful. -/
theorem lawful_cons {r : Response} (lawful : r.Lawful) {earlier : List Response} (rest : ∀ q ∈ earlier, Response.Lawful q) :
    ∀ q ∈ r :: earlier, Response.Lawful q :=
  List.forall_mem_cons.mpr ⟨lawful, rest⟩

/-- Every instruction keeps the invariant. -/
theorem State.Inv.exec (inv : s.Inv) (h : exec i s = .next t) : t.Inv where
  cfgAdmissible := (exec_writes h).cfg ▸ inv.cfgAdmissible
  settlingArmed := by
    intro phase
    obtain ⟨before, sel⟩ := exec_settling h phase
    rw [sel]
    exact exec_keeps_armed h (inv.settlingArmed before)
  responsesLawful := by
    rcases exec_rsps h with same | ⟨r, lawful, more⟩
    · rw [same]
      exact inv.responsesLawful
    · rw [more]
      exact lawful_cons lawful inv.responsesLawful

/-- The schedule is outside the invariant. -/
theorem State.Inv.setSched (inv : s.Inv) (l : List Turn) : (s.setSched l).Inv :=
  ⟨inv.cfgAdmissible, inv.settlingArmed, inv.responsesLawful⟩

/-- The command list is outside the invariant. -/
theorem State.Inv.setCmds (inv : s.Inv) (l : List (Word × Word)) : (s.setCmds l).Inv :=
  ⟨inv.cfgAdmissible, inv.settlingArmed, inv.responsesLawful⟩

/-- A lawful response keeps the invariant. -/
theorem State.Inv.push (inv : s.Inv) {r : Response} (lawful : r.Lawful) : (s.push r).Inv :=
  ⟨inv.cfgAdmissible, inv.settlingArmed, lawful_cons lawful inv.responsesLawful⟩

/-- INIT's second phase arms the counter whose second wait it begins (R88). -/
theorem initArm_armed (s : State) : ((initArm s).counter (initArm s).hsel).armed = true := by
  simp [initArm, State.arm]

/-- INIT's second phase keeps the invariant. -/
theorem State.Inv.initArm (inv : s.Inv) : (initArm s).Inv :=
  ⟨inv.cfgAdmissible, fun _ => initArm_armed s, inv.responsesLawful⟩

/-- INIT's last phase keeps the invariant: no wait is left (R89). -/
theorem State.Inv.initCleared (inv : s.Inv) : (initCleared s).Inv :=
  ⟨inv.cfgAdmissible, nofun, lawful_cons trivial inv.responsesLawful⟩

/-- Settles O52, by the way the step ended. -/
theorem everyStepKeepsTheInvariant : Obligations.EveryStepKeepsTheInvariant := by
  intro s t inv h
  cases step_stepped h with
  | passed later after => exact after ▸ inv.setSched later
  | issued _ _ _ run => exact ((inv.setSched _).setCmds _).exec run
  | illegal _ _ after => exact after ▸ ((inv.setSched _).setCmds _).push rfl
  | armed _ _ after => exact after ▸ (inv.setSched _).initArm
  | cleared _ _ after => exact after ▸ (inv.setSched _).initCleared
  | delivered _ _ run => exact (inv.setSched _).exec run

/-- Settles O50: the record of reset; its tables are the board's, which come with their admissibility (log 3). -/
theorem resetState : Obligations.ResetState := by
  refine ⟨?_, ?_, ?_, rfl, rfl, rfl, board.ok⟩
  · intro i
    exact Vector.getElem_replicate _
  · intro w
    exact congrArg Window.started (Vector.getElem_replicate _)
  · intro h
    exact congrArg Histogram.valid (Vector.getElem_replicate _)

/-- Settles O51: at reset no INIT is under way and nothing has been answered. -/
theorem invariantHoldsAtReset : Obligations.InvariantHoldsAtReset :=
  ⟨board.ok, nofun, nofun⟩

/-! ### The guard bits -/

/-- The one-bit elements set in `s` are set in `t` (R25). -/
abbrev GuardsKept (s t : State) : Prop :=
  (∀ k : Fin nPC, (s.counter k).armed = true → (t.counter k).armed = true) ∧
    (∀ w : Fin nWin, (s.window w).started = true → (t.window w).started = true) ∧
    ∀ h : Fin nHist, (s.histogram h).valid = true → (t.histogram h).valid = true

/-- START leaves the window started, whatever its kind (R101). -/
@[simp] theorem Window.restarted_started (x : Window) (kind : WinKind) (count : Count) (now : Time) :
    (x.restarted kind count now).started = true := by
  cases kind <;> rfl

/-- RECORD leaves the histogram as valid as it was (R142). -/
@[simp] theorem Histogram.recorded_valid (x : Histogram) (found : Option (Fin nLevels)) : (x.recorded found).valid = x.valid := by
  cases found <;> rfl

/-- No instruction clears `started` (R25). -/
theorem exec_keeps_started (h : exec i s = .next t) {w : Fin nWin} (started : (s.window w).started = true) :
    (t.window w).started = true := by
  rcases (exec_writes h).wins with same | ⟨sel, rfl⟩
  · rw [State.window, same]
    exact started
  · rcases execStart_next h with ⟨v, -, rfl⟩ | ⟨-, rfl⟩
    · by_cases e : v = w
      · subst e
        simp
      · rw [State.window_push, State.window_setWindow_ne _ _ _ _ e, started]
    · exact started

/-- There is one histogram, so a written one is the one read (D20). -/
theorem State.histogram_setHistogram (s : State) (g h : Fin nHist) (x : Histogram) : (s.setHistogram g x).histogram h = x := by
  rw [Subsingleton.elim h g, State.histogram_setHistogram_self]

/-- No instruction clears `hvalid` (R25). -/
theorem exec_keeps_valid (run : exec i s = .next t) {h : Fin nHist} (valid : (s.histogram h).valid = true) :
    (t.histogram h).valid = true := by
  rcases (exec_writes run).hists with same | ⟨sel, rfl⟩ | ⟨sel, rfl⟩
  · rw [State.histogram, same]
    exact valid
  · rcases execHnew_next run with ⟨g, -, rfl⟩ | ⟨-, rfl⟩
    · rw [State.histogram_push, State.histogram_setHistogram]
      rfl
    · exact valid
  · rcases execRecord_next run with ⟨g, -, ⟨-, l, n, -, rfl⟩ | ⟨-, rfl⟩⟩ | ⟨-, rfl⟩
    · rw [State.histogram_push, State.histogram_setHistogram, Histogram.recorded_valid, Subsingleton.elim g h, valid]
    · exact valid
    · exact valid

/-- No instruction clears a guard bit. -/
theorem exec_keeps_guards (h : exec i s = .next t) : GuardsKept s t :=
  ⟨fun _ => exec_keeps_armed h, fun _ => exec_keeps_started h, fun _ => exec_keeps_valid h⟩

/-- A counter written with its own `armed` bit or with 1 clears none. -/
theorem setCounter_keeps_armed {k j : Fin nPC} {c : PulseCounter} (kept : (s.counter k).armed = true → c.armed = true)
    (armed : (s.counter j).armed = true) : ((s.setCounter k c).counter j).armed = true := by
  by_cases e : k = j
  · subst e
    rw [State.counter_setCounter_self, kept armed]
  · rw [State.counter_setCounter_ne _ _ _ _ e, armed]

/-- Settles O53, by the way the step ended; INIT's phases write `armed` as 1 or as it was. -/
theorem guardBitsAreNeverCleared : Obligations.GuardBitsAreNeverCleared := by
  intro s t h
  show GuardsKept s t
  cases step_stepped h with
  | passed _ after => exact after ▸ ⟨fun _ => id, fun _ => id, fun _ => id⟩
  | issued _ _ _ run =>
    have kept := exec_keeps_guards run
    exact kept
  | illegal _ _ after => exact after ▸ ⟨fun _ => id, fun _ => id, fun _ => id⟩
  | @armed later _ _ after =>
    exact after ▸ ⟨fun _ => setCounter_keeps_armed (s := s.setSched later) fun _ => rfl, fun _ => id, fun _ => id⟩
  | @cleared later _ _ after =>
    exact after ▸ ⟨fun _ => setCounter_keeps_armed (s := s.setSched later) id, fun _ => id, fun _ => id⟩
  | delivered _ _ run =>
    have kept := exec_keeps_guards run
    exact kept

end Sys2Proof.Machine
end

section
/-! SUPPORT and settlement. Who writes what, over whole steps: time bases, counter fields, the byte queue, the host's list inside INIT (R12, R17,
R44, R49, R54, R90). -/

namespace Sys2Proof.Machine

open Config

variable {s t : State} {i : Instr} {cw arg ep : Word} {ev : Byte}

/-- Everything an event can do to what EDGE, ADVANCE and RXBYTE do not own (R44). -/
structure EventFrame (s t : State) : Prop where
  wins : t.wins = s.wins
  hists : t.hists = s.hists
  hphase : t.hphase = s.hphase
  hsel : t.hsel = s.hsel
  ht0 : t.ht0 = s.ht0
  cmds : t.cmds = s.cmds
  adc : t.adc = s.adc
  adcDraws : t.adcDraws = s.adcDraws
  rsps : t.rsps = s.rsps

/-- The frame of the events, and that only RXBYTE appends to the queue (R160). -/
theorem event_frame (accepted : decode (.evt ev ep) = .ok i) (run : exec i s = .next t) :
    EventFrame s t ∧ (t.rxq = s.rxq ∨ ∃ b, ev = 0x30#8 ∧ t.rxq = s.rxq ++ [b]) := by
  rcases decode_evt_ok accepted with ⟨k, -, rfl⟩ | ⟨-, rfl⟩ | ⟨-, rfl⟩ | ⟨b, code, -, rfl⟩
  · obtain ⟨j, -, ⟨-, rfl⟩ | ⟨-, rfl⟩⟩ := execEdge_next run <;>
      exact ⟨⟨rfl, rfl, rfl, rfl, rfl, rfl, rfl, rfl, rfl⟩, .inl rfl⟩
  · obtain rfl := execAdvance_next run
    exact ⟨⟨rfl, rfl, rfl, rfl, rfl, rfl, rfl, rfl, rfl⟩, .inl rfl⟩
  · obtain rfl := execAdvance_next run
    exact ⟨⟨rfl, rfl, rfl, rfl, rfl, rfl, rfl, rfl, rfl⟩, .inl rfl⟩
  · obtain rfl := execRxbyte_next run
    exact ⟨⟨rfl, rfl, rfl, rfl, rfl, rfl, rfl, rfl, rfl⟩, .inr ⟨b, code, rfl⟩⟩

/-- An accepted event that is an ADVANCE has its code (R65). -/
theorem decode_advance_code {b : TimeBase} {n : Time} (accepted : decode (.evt ev ep) = .ok (.advance b n)) :
    ev = eventCode 2#4 b.esel := by
  obtain ⟨p, code⟩ := decodeEvent_code accepted
  cases code
  rfl

/-- An accepted event that is an EDGE has its code (R65). -/
theorem decode_edge_code {k : Fin nPC} (accepted : decode (.evt ev ep) = .ok (.edge (BitVec.ofNat 4 k.val))) :
    ev = edgeCode k := by
  obtain ⟨p, code⟩ := decodeEvent_code accepted
  cases code
  rfl

/-- An accepted event is no INIT (R65). -/
theorem decode_evt_ne_init {sel : Byte} {w : Time} : decode (.evt ev ep) ≠ .ok (.init sel w) := by
  intro accepted
  rcases decode_evt_ok accepted with ⟨k, -, e⟩ | ⟨-, e⟩ | ⟨-, e⟩ | ⟨b, -, -, e⟩ <;> cases e

/-- An accepted command leaves both time bases (R12). -/
theorem command_keeps_time (accepted : decode (.cmd cw arg) = .ok i) (run : exec i s = .next t) :
    t.tbEdge = s.tbEdge ∧ t.tbMs = s.tbMs := by
  obtain ⟨-, no_advance, -⟩ := decodeCommand_ok accepted
  refine ⟨(exec_writes run).tbEdge.resolve_right ?_, (exec_writes run).tbMs.resolve_right ?_⟩
  · rintro ⟨n, e⟩
    exact no_advance _ _ e
  · rintro ⟨n, e⟩
    exact no_advance _ _ e

/-- Settles O54: of the ways a step can end, only an event leaves the frame of the time bases, and that event is an ADVANCE. -/
theorem onlyAdvanceMovesTimeAndNothingMovesTheTables : Obligations.OnlyAdvanceMovesTimeAndNothingMovesTheTables := by
  intro s t h
  refine ⟨step_cfg h, ?_⟩
  cases step_stepped h with
  | passed _ after | illegal _ _ after | armed _ _ after | cleared _ _ after =>
    subst after
    exact ⟨fun moved => absurd rfl moved, fun moved => absurd rfl moved⟩
  | issued _ _ accepted run =>
    obtain ⟨edge, ms⟩ := command_keeps_time accepted run
    exact ⟨fun moved => absurd edge moved, fun moved => absurd ms moved⟩
  | @delivered ev ep later i turn accepted run =>
    constructor
    · intro moved
      obtain ⟨n, rfl⟩ := (exec_writes run).tbEdge.resolve_left moved
      exact ⟨_, _, decode_advance_code accepted ▸ turn⟩
    · intro moved
      obtain ⟨n, rfl⟩ := (exec_writes run).tbMs.resolve_left moved
      exact ⟨_, _, decode_advance_code accepted ▸ turn⟩

/-- A counter that a write to counter `k` changed is `k`, with the record written (R17). -/
theorem counter_setCounter_of_changed {k j : Fin nPC} {c : PulseCounter} (changed : (s.setCounter k c).counter j ≠ s.counter j) :
    k = j ∧ (s.setCounter k c).counter j = c := by
  by_cases e : k = j
  · subst e
    exact ⟨rfl, State.counter_setCounter_self s k c⟩
  · exact absurd (State.counter_setCounter_ne s k j c e) changed

/-- EDGE adds one to the count or leaves it (R81). -/
theorem PulseCounter.onEdge_count_of_changed {c : PulseCounter} {now : Time} (changed : (c.onEdge now).count ≠ c.count) :
    (c.onEdge now).count = c.count + 1#32 := by
  rw [PulseCounter.onEdge_count] at changed ⊢
  exact if_pos (by_contra fun within => changed (if_neg within))

/-- Settles O55: a counter that changed was changed by INIT's first phase, by its second, by its last, or by the counter's own edge. -/
theorem counterFieldsHaveTheirOneWriter : Obligations.CounterFieldsHaveTheirOneWriter := by
  intro s t i h
  simp only [State.pcs_getElem]
  by_cases same : t.counter i = s.counter i
  · rw [same]
    exact ⟨fun c => absurd rfl c, fun c => absurd rfl c, fun c => absurd rfl c, fun c => absurd rfl c⟩
  cases step_stepped h with
  | passed _ after | illegal _ _ after => exact absurd (after ▸ rfl) same
  | @issued _ _ _ later _ turn idle accepted run =>
    rcases exec_counter run i with unchanged | ⟨edge, -⟩ | ⟨_, window, -, phase, sel, configured⟩
    · exact absurd unchanged same
    · exact absurd edge ((decodeCommand_ok accepted).1 _)
    · rw [configured]
      exact ⟨fun c => absurd rfl c, fun c => absurd rfl c, fun _ => ⟨idle, phase, sel, later, turn⟩, fun c => absurd rfl c⟩
  | @armed later turn phase after =>
    subst after
    obtain ⟨rfl, record⟩ := counter_setCounter_of_changed (s := s.setSched later) same
    rw [initArm, State.counter_setSequencer, State.arm, record]
    exact ⟨fun c => absurd rfl c, fun c => absurd rfl c, fun c => absurd rfl c, fun _ => ⟨phase, rfl, later, turn⟩⟩
  | @cleared later turn phase after =>
    subst after
    obtain ⟨rfl, record⟩ := counter_setCounter_of_changed (s := s.setSched later) same
    rw [initCleared, State.counter_push, State.counter_setSequencer, record]
    exact ⟨fun c => absurd rfl c, fun _ => .inr ⟨rfl, phase, rfl, later, turn⟩, fun c => absurd rfl c, fun c => absurd rfl c⟩
  | @delivered _ ep later _ turn accepted run =>
    rcases exec_counter run i with unchanged | ⟨rfl, -, edge⟩ | ⟨_, _, rfl, -⟩
    · exact absurd unchanged same
    · have by_edge : ∃ ep rest, s.sched = .event (edgeCode i) ep :: rest := ⟨ep, later, decode_edge_code accepted ▸ turn⟩
      rw [edge]
      exact ⟨fun _ => by_edge, fun counted => .inl ⟨PulseCounter.onEdge_count_of_changed counted, by_edge⟩,
        fun c => absurd rfl c, fun c => absurd rfl c⟩
    · exact absurd accepted decode_evt_ne_init

/-- A command leaves the queue or, if it is POLL, takes 0, 1 or 32 bytes from its head (R162). -/
theorem command_rxq (accepted : decode (.cmd cw arg) = .ok i) (run : exec i s = .next t) :
    ∃ n, (n = 0 ∨ n = 1 ∨ n = 32) ∧ t.rxq = s.rxq.drop n := by
  obtain ⟨-, -, no_rxbyte⟩ := decodeCommand_ok accepted
  rcases (exec_writes run).rxq with same | rfl | ⟨b, rfl⟩
  · exact ⟨0, .inl rfl, same⟩
  · rcases execPoll_next run with ⟨n, rfl | rfl, rfl⟩ | ⟨-, -, ⟨-, rfl⟩ | ⟨-, rfl⟩⟩
    · exact ⟨0, .inl rfl, rfl⟩
    · exact ⟨1, .inr (.inl rfl), rfl⟩
    · exact ⟨32, .inr (.inr rfl), rfl⟩
    · exact ⟨32, .inr (.inr rfl), rfl⟩
  · exact absurd rfl (no_rxbyte b)

/-- What a step on an event runs. -/
theorem step_event_next {rest : List Turn} (turn : s.sched = .event ev ep :: rest) (h : step s = .next t) :
    ∃ i, decode (.evt ev ep) = .ok i ∧ exec i (s.setSched rest) = .next t := by
  cases d : decode (.evt ev ep) with
  | ok i => exact ⟨i, rfl, (step_event turn d).symm.trans h⟩
  | error r => exact nomatch (step_nonEvent turn (by simp [d])).symm.trans h

/-- Settles O56, by the agent whose turn it was. -/
theorem queueOrderAndEventsStayInTheirUnits : Obligations.QueueOrderAndEventsStayInTheirUnits := by
  intro s t h
  constructor
  · intro rest turn
    cases step_stepped h with
    | passed _ after | illegal _ _ after | armed _ _ after | cleared _ _ after => exact ⟨0, .inl rfl, after ▸ rfl⟩
    | issued _ _ accepted run =>
      have taken := command_rxq accepted run
      exact taken
    | delivered event => exact nomatch turn.symm.trans event
  · intro ev ep rest turn
    obtain ⟨i, accepted, run⟩ := step_event_next turn h
    obtain ⟨frame, queue⟩ := event_frame accepted run
    exact ⟨queue, frame.wins, frame.hists, frame.rsps, frame.cmds, frame.adc, frame.adcDraws⟩

/-- Settles O22: inside INIT a host's turn passes, arms or clears, and an event leaves the sequencer to the host. -/
theorem noCommandIsIssuedInsideInit : Obligations.NoCommandIsIssuedInsideInit := by
  constructor
  · intro s t rest turn inside h
    cases step_stepped h with
    | passed _ after | armed _ _ after =>
      subst after
      exact ⟨rfl, rfl, rfl, rfl, .inl rfl⟩
    | cleared _ _ after =>
      subst after
      exact ⟨rfl, rfl, rfl, rfl, .inr ⟨rfl, rfl⟩⟩
    | issued _ idle | illegal _ idle => exact absurd idle inside
    | delivered event => exact nomatch turn.symm.trans event
  · intro s ev ep rest i turn _ accepted
    obtain ⟨t, run⟩ := exec_total (decode_wellFormed accepted) (s.setSched rest)
    obtain ⟨frame, -⟩ := event_frame accepted run
    exact ⟨t, (step_event turn accepted).trans run, frame.hphase, frame.hsel, frame.ht0⟩

end Sys2Proof.Machine
end

section
/-! SUPPORT and settlement. The responses of the commands: one each, with a status of the command's row (R66, R182), and the same again when a
query is repeated (R44). -/

namespace Sys2Proof.Machine

open Config

variable {s t u : State} {i : Instr}

/-- A legal selector is not the illegal case. -/
theorem not_illegalCase {n : Nat} {sel : Byte} (legal : decide (sel.toNat < n) = true) : ¬ IllegalCase n sel s t :=
  fun ⟨outside, _⟩ => absurd (of_decide_eq_true legal) (Nat.not_lt.mpr outside)

theorem classAnswer_status (found : Option (Fin nLevels)) : (classAnswer found).1 = .ok ∨ (classAnswer found).1 = .noMatch := by
  cases found with
  | some k => exact .inl rfl
  | none => exact .inr rfl

theorem modeAnswer_status (best : Nat) : (modeAnswer best).1 = .ok ∨ (modeAnswer best).1 = .noMatch := by
  unfold modeAnswer
  split
  · exact .inr rfl
  · exact .inl rfl

theorem quantity_status (s : State) (w : Fin nWin) : (s.quantity w).1 = .ok ∨ (s.quantity w).1 = .notReady :=
  (quantity_cases s w).imp_right (congrArg Prod.fst)

/-- Settles O57, by what each well-formed instruction does. -/
theorem eachCommandAnswersOnceWithAStatusOfItsRow : Obligations.EachCommandAnswersOnceWithAStatusOfItsRow := by
  intro s t i legal h
  cases i with
  | init sel w =>
    obtain ⟨k, -, rfl⟩ := (execInit_next h).resolve_right (not_illegalCase legal)
    rfl
  | edge e => obtain ⟨k, -, ⟨-, rfl⟩ | ⟨-, rfl⟩⟩ := execEdge_next h <;> rfl
  | advance b n =>
    obtain rfl := execAdvance_next h
    exact State.setTimeBase_rsps s b _
  | rxbyte b =>
    obtain rfl := execRxbyte_next h
    rfl
  | read sel =>
    obtain ⟨k, -, rfl⟩ := (execRead_next h).resolve_right (not_illegalCase legal)
    exact ⟨_, rfl, rfl⟩
  | start sel =>
    obtain ⟨w, -, rfl⟩ := (execStart_next h).resolve_right (not_illegalCase legal)
    exact ⟨_, rfl, rfl⟩
  | hnew sel =>
    obtain ⟨g, -, rfl⟩ := (execHnew_next h).resolve_right (not_illegalCase legal)
    exact ⟨_, rfl, rfl⟩
  | quant sel =>
    obtain ⟨w, -, ⟨-, rfl⟩ | ⟨-, rfl⟩⟩ := (execQuant_next h).resolve_right (not_illegalCase legal)
    · exact ⟨_, rfl, (quantity_status s w).imp_right .inl⟩
    · exact ⟨_, rfl, .inr (.inr rfl)⟩
  | classify raw =>
    obtain rfl := execClassify_next h
    exact ⟨_, rfl, classAnswer_status _⟩
  | idx2deg index =>
    rcases execIdx2deg_next h with ⟨k, -, rfl⟩ | ⟨-, rfl⟩
    · exact ⟨_, rfl, .inl rfl⟩
    · exact ⟨_, rfl, .inr rfl⟩
  | idx2lbl index =>
    rcases execIdx2lbl_next h with ⟨k, -, rfl⟩ | ⟨-, rfl⟩
    · exact ⟨_, rfl, .inl rfl⟩
    · exact ⟨_, rfl, .inr rfl⟩
  | record sel =>
    obtain ⟨g, -, ⟨-, l, n, -, rfl⟩ | ⟨-, rfl⟩⟩ := (execRecord_next h).resolve_right (not_illegalCase legal)
    · exact ⟨_, rfl, .inl rfl⟩
    · exact ⟨_, rfl, .inr rfl⟩
  | mode sel =>
    obtain ⟨g, -, ⟨-, rfl⟩ | ⟨-, rfl⟩⟩ := (execMode_next h).resolve_right (not_illegalCase legal)
    · exact ⟨_, rfl, (modeAnswer_status _).imp_right .inl⟩
    · exact ⟨_, rfl, .inr (.inr rfl)⟩
  | poll =>
    rcases execPoll_next h with ⟨n, -, rfl⟩ | ⟨-, -, ⟨-, rfl⟩ | ⟨-, rfl⟩⟩
    · exact ⟨_, rfl, .inr (.inl rfl)⟩
    · exact ⟨_, rfl, .inr (.inr rfl)⟩
    · exact ⟨_, rfl, .inl rfl⟩

/-! ### Repeating a query -/

/-- A selected command run twice runs its body twice on the same record, or is illegal twice. -/
theorem selected_next_twice {n : Nat} {sel : Byte} {f g : Fin n → Out} (first : selected n sel s f = .next t)
    (again : selected n sel t g = .next u) :
    (∃ k, f k = .next t ∧ g k = .next u) ∨ (t = s.push ⟨.illegal, .r32 0#32⟩ ∧ u = t.push ⟨.illegal, .r32 0#32⟩) := by
  by_cases legal : sel.toNat < n
  · rw [selected_of_lt legal] at first again
    exact .inl ⟨_, first, again⟩
  · rw [selected_of_ge (Nat.not_lt.mp legal)] at first again
    cases first
    cases again
    exact .inr ⟨rfl, rfl⟩

/-- A guarded response given twice: nothing else moved between, so the guard and the response are the same. -/
theorem guarded_respond_twice {bit bit' : Bool} {r r' : Response} (first : guarded bit s (.next (s.push r)) = .next t)
    (again : guarded bit' t (.next (t.push r')) = .next u) (same : ∀ q, t = s.push q → bit' = bit ∧ r' = r) :
    ∃ q, t.rsps = q :: s.rsps ∧ u = t.push q := by
  rcases guarded_next first with ⟨rfl, first⟩ | ⟨rfl, rfl⟩
  · cases first
    obtain ⟨rfl, rfl⟩ := same _ rfl
    cases again
    exact ⟨_, rfl, rfl⟩
  · obtain ⟨rfl, -⟩ := same _ rfl
    cases again
    exact ⟨_, rfl, rfl⟩

/-- Writing back what is there changes nothing. -/
@[simp] theorem State.setWindow_window (s : State) (w : Fin nWin) : s.setWindow w (s.window w) = s := by
  simp [State.window, State.setWindow]

@[simp] theorem State.setHistogram_histogram (s : State) (h : Fin nHist) : s.setHistogram h (s.histogram h) = s := by
  simp [State.histogram, State.setHistogram]

/-- Restarting a window again at the same count and time changes nothing (R101). -/
@[simp] theorem Window.restarted_restarted (x : Window) (kind : WinKind) (count : Count) (now : Time) :
    (x.restarted kind count now).restarted kind count now = x.restarted kind count now := by
  cases kind <;> rfl

/-- A written window whose record is written again as it stands. -/
theorem State.setWindow_of_window {w : Fin nWin} {x : Window} (there : s.window w = x) : s.setWindow w x = s := by
  rw [← there, State.setWindow_window]

/-- A written histogram whose record is written again as it stands. -/
theorem State.setHistogram_of_histogram {h : Fin nHist} {x : Histogram} (there : s.histogram h = x) : s.setHistogram h x = s := by
  rw [← there, State.setHistogram_histogram]

/-- Settles O58: between the two only the response was written, or the record that is then written again as it stands. -/
theorem queriesAreIdempotent : Obligations.QueriesAreIdempotent := by
  intro s t u i query first again
  show ∃ r, t.rsps = r :: s.rsps ∧ u = t.push r
  cases i with
  | init | record | poll | edge | advance | rxbyte => exact query.elim
  | read sel =>
    rw [exec_read] at first again
    rcases selected_next_twice first again with ⟨k, first, again⟩ | ⟨rfl, rfl⟩
    · cases first
      cases again
      exact ⟨_, rfl, rfl⟩
    · exact ⟨_, rfl, rfl⟩
  | start sel =>
    rw [exec_start] at first again
    rcases selected_next_twice first again with ⟨w, first, again⟩ | ⟨rfl, rfl⟩
    · cases first
      cases again
      refine ⟨_, rfl, congrArg (State.push · _) (State.setWindow_of_window ?_)⟩
      simp
    · exact ⟨_, rfl, rfl⟩
  | hnew sel =>
    rw [exec_hnew] at first again
    rcases selected_next_twice first again with ⟨h, first, again⟩ | ⟨rfl, rfl⟩
    · cases first
      cases again
      refine ⟨_, rfl, congrArg (State.push · _) (State.setHistogram_of_histogram ?_)⟩
      simp
    · exact ⟨_, rfl, rfl⟩
  | quant sel =>
    rw [exec_quant] at first again
    rcases selected_next_twice first again with ⟨w, first, again⟩ | ⟨rfl, rfl⟩
    · refine guarded_respond_twice first again ?_
      rintro q rfl
      exact ⟨rfl, rfl⟩
    · exact ⟨_, rfl, rfl⟩
  | mode sel =>
    rw [exec_mode, execMode] at first again
    rcases selected_next_twice first again with ⟨h, first, again⟩ | ⟨rfl, rfl⟩
    · refine guarded_respond_twice first again ?_
      rintro q rfl
      exact ⟨rfl, rfl⟩
    · exact ⟨_, rfl, rfl⟩
  | classify raw =>
    cases first
    cases again
    exact ⟨_, rfl, rfl⟩
  | idx2deg index =>
    rcases execIdx2deg_next first with ⟨k, level, rfl⟩ | ⟨level, rfl⟩
    · rw [exec_idx2deg_of_some _ level] at again
      cases again
      exact ⟨_, rfl, rfl⟩
    · rw [exec_idx2deg_of_none _ level] at again
      cases again
      exact ⟨_, rfl, rfl⟩
  | idx2lbl index =>
    rcases execIdx2lbl_next first with ⟨k, level, rfl⟩ | ⟨level, rfl⟩
    · rw [exec_idx2lbl_of_some _ level] at again
      cases again
      exact ⟨_, rfl, rfl⟩
    · rw [exec_idx2lbl_of_none _ level] at again
      cases again
      exact ⟨_, rfl, rfl⟩

end Sys2Proof.Machine
end

section
/-! SUPPORT and settlement. Unit PC: each instruction as the state it leaves, INIT's phases, edges of the two counters, and runs of edges
(R80 to R92). -/

namespace Sys2Proof.Machine

open Config

variable {s t : State} {rest : List Turn}

/-- A 32-bit sum by the numbers (D2, D4). -/
theorem ofNat_add_mod (x y : BitVec 32) : BitVec.ofNat 32 ((x.toNat + y.toNat) % 2 ^ 32) = x + y := by
  rw [← BitVec.toNat_add, BitVec.ofNat_toNat, BitVec.setWidth_eq]

/-- The meaning of ADVANCE. -/
theorem exec_advance (b : TimeBase) (n : Time) (s : State) :
    exec (.advance b n) s = .next (s.setTimeBase b (s.timeBase b + n)) := rfl

theorem State.timeBase_setTimeBase (s : State) (b : TimeBase) (x : Time) : (s.setTimeBase b x).timeBase b = x := by
  cases b <;> rfl

theorem State.setTimeBase_setTimeBase (s : State) (b : TimeBase) (x y : Time) :
    (s.setTimeBase b x).setTimeBase b y = s.setTimeBase b y := by
  cases b <;> rfl

/-- Settles O12: the sum is modular, and modular addition is associative. -/
theorem advanceMovesOneTimeBase : Obligations.AdvanceMovesOneTimeBase := by
  refine ⟨?_, ?_, ?_⟩
  · intro s n
    rw [exec_advance, ofNat_add_mod]
    rfl
  · intro s n
    rw [exec_advance, ofNat_add_mod]
    rfl
  · intro s t b m n h
    obtain rfl := execAdvance_next h
    rw [exec_advance, exec_advance, State.timeBase_setTimeBase, State.setTimeBase_setTimeBase, BitVec.add_assoc]

/-! ### EDGE -/

/-- The state after an edge of counter `k` (R81). -/
def State.edged (s : State) (k : Fin nPC) : State :=
  if (s.counter k).armed then s.setCounter k ((s.counter k).onEdge s.tbEdge) else s

/-- EDGE of a counter (R81). -/
theorem exec_edge_ofNat (k : Fin nPC) (s : State) : exec (.edge (BitVec.ofNat 4 k.val)) s = .next (s.edged k) := by
  rw [exec_edge, execEdge, eventCounter_ofNat, State.isArmed_eq, State.edged]

/-- An edge leaves the other counter (R17). -/
theorem State.edged_counter_ne (s : State) {j k : Fin nPC} (other : k ≠ j) : (s.edged k).counter j = s.counter j := by
  unfold State.edged
  split
  · exact State.counter_setCounter_ne s k j _ other
  · rfl

/-- The strict modular comparison of EDGE on plain numbers (R82). -/
theorem window_lt_elapsed_iff (c : PulseCounter) (now : Time) :
    c.dbw < now - c.last ↔ c.dbw.toNat < (now.toNat + 2 ^ 32 - c.last.toNat) % 2 ^ 32 := by
  rw [← elapsed_toNat, BitVec.lt_def, elapsed]

/-- The record after an edge on plain numbers (R81, R82). -/
theorem PulseCounter.onEdge_eq (c : PulseCounter) (now : Time) :
    c.onEdge now = { c with
      count := if c.dbw.toNat < (now.toNat + 2 ^ 32 - c.last.toNat) % 2 ^ 32
        then BitVec.ofNat 32 ((c.count.toNat + 1) % 2 ^ 32) else c.count,
      last := now } := by
  have plus_one : BitVec.ofNat 32 ((c.count.toNat + 1) % 2 ^ 32) = c.count + 1#32 := ofNat_add_mod c.count 1#32
  simp only [← window_lt_elapsed_iff, plus_one, ← PulseCounter.onEdge_count]
  rfl

/-- Settles O13: the record after an edge, if the counter is armed. -/
theorem edgeCountsOverTheWindow : Obligations.EdgeCountsOverTheWindow := by
  intro s i
  rw [exec_edge_ofNat, State.pcs_getElem, State.edged, PulseCounter.onEdge_eq]
  rfl

/-- Writes to two counters commute (R17). -/
theorem State.setCounter_comm (s : State) {j k : Fin nPC} (other : j ≠ k) (c d : PulseCounter) :
    (s.setCounter j c).setCounter k d = (s.setCounter k d).setCounter j c := by
  simp only [State.setCounter, Vector.set_comm _ _ (Fin.val_ne_of_ne other)]

/-- An edge as one write, of the record as it was if the counter is not armed (R81). -/
theorem State.edged_eq (s : State) (k : Fin nPC) :
    s.edged k = s.setCounter k (if (s.counter k).armed then (s.counter k).onEdge s.tbEdge else s.counter k) := by
  unfold State.edged
  split
  · rfl
  · rw [State.setCounter_counter]

/-- Edges of two counters commute as states (R50, R186). -/
theorem State.edged_comm (s : State) {j k : Fin nPC} (other : j ≠ k) : (s.edged j).edged k = (s.edged k).edged j := by
  simp only [State.edged_eq, State.counter_setCounter_ne _ _ _ _ other, State.counter_setCounter_ne _ _ _ _ other.symm,
    State.setCounter_tbEdge]
  exact State.setCounter_comm s other _ _

/-- Settles O23. -/
theorem edgesOfTwoCountersCommute : Obligations.EdgesOfTwoCountersCommute := by
  intro s i j other
  refine ⟨_, _, _, exec_edge_ofNat i s, exec_edge_ofNat j _, exec_edge_ofNat j s, ?_, ?_, ?_⟩
  · rw [exec_edge_ofNat, State.edged_comm s other]
  · exact State.edged_counter_ne s other
  · exact State.edged_counter_ne s other.symm

/-! ### READ and INIT -/

/-- Settles O17. -/
theorem readAnswersTheCount : Obligations.ReadAnswersTheCount := by
  intro s i
  rw [exec_read, selected_ofNat i (by decide), countValue, BitVec.setWidth_eq]
  rfl

/-- Settles O18. -/
theorem initConfigures : Obligations.InitConfigures := by
  intro s i window
  rw [exec_init, selected_ofNat i (by decide)]
  rfl

/-- A host's turn in INIT's first wait (R88). -/
theorem step_settle1 (turn : s.sched = .host :: rest) (phase : s.hphase = .settle1) :
    step s = .next (if s.cfg.tSettle1 ≤ (s.tbMs.toNat + 2 ^ 32 - s.ht0.toNat) % 2 ^ 32
      then initArm (s.setSched rest) else s.setSched rest) := by
  rw [step_host turn, hostTurn_settle1 (s := s.setSched rest) phase]
  simp only [waited_iff]
  exact (apply_ite _ _ _ _).symm

/-- A host's turn in INIT's second wait (R89). -/
theorem step_settle2 (turn : s.sched = .host :: rest) (phase : s.hphase = .settle2) :
    step s = .next (if s.cfg.tSettle2 ≤ (s.tbMs.toNat + 2 ^ 32 - s.ht0.toNat) % 2 ^ 32
      then initCleared (s.setSched rest) else s.setSched rest) := by
  rw [step_host turn, hostTurn_settle2 (s := s.setSched rest) phase]
  simp only [waited_iff, initClear_next]
  exact (apply_ite _ _ _ _).symm

/-- Settles O19. -/
theorem initArmsAfterTheFirstWait : Obligations.InitArmsAfterTheFirstWait := by
  intro s rest turn phase
  exact step_settle1 turn phase

/-- Settles O20. -/
theorem initClearsAfterTheSecondWait : Obligations.InitClearsAfterTheSecondWait := by
  intro s rest turn phase
  exact step_settle2 turn phase

/-- The command word of INIT for counter `k` (R62). -/
theorem decode_initWord (k : Fin nPC) (window : Time) :
    decode (.cmd (0x01000000#32 ||| (BitVec.ofNat 32 k.val <<< 16)) window) = .ok (.init (BitVec.ofNat 8 k.val) window) := by
  match k with
  | 0 | 1 => rfl

/-- The command word of READ for counter `k` (R62). -/
theorem decode_readWord (k : Fin nPC) (arg : Word) :
    decode (.cmd (0x02000000#32 ||| (BitVec.ofNat 32 k.val <<< 16)) arg) = .ok (.read (BitVec.ofNat 8 k.val)) := by
  match k with
  | 0 | 1 => rfl

/-- ADVANCE of `tb_ms` on its turn (R80). -/
theorem step_advance_ms {n : Time} (turn : s.sched = .event 0x21#8 n :: rest) :
    step s = .next ((s.setSched rest).setTimeBase .ms (s.tbMs + n)) :=
  step_event (i := .advance .ms n) turn rfl

/-- The time waited when `tb_ms` has moved by `n` since the wait began (R82). -/
theorem waited_after (now n : Time) : ((now + n).toNat + 2 ^ 32 - now.toNat) % 2 ^ 32 = n.toNat := by
  rw [← elapsed_toNat, elapsed, BitVec.add_comm, BitVec.add_sub_cancel]

/-- INIT on the host's turn outside INIT (R87). -/
theorem step_init {k : Fin nPC} {window : Time} {l : List (Word × Word)} (turn : s.sched = .host :: rest) (idle : s.hphase = .idle)
    (command : s.cmds = (0x01000000#32 ||| (BitVec.ofNat 32 k.val <<< 16), window) :: l) :
    step s = .next (initConfigure k window ((s.setSched rest).setCmds l)) := by
  rw [step_command turn idle command (decode_initWord k window), exec_init, selected_ofNat k (by decide)]

/-- INIT's second phase, its wait over (R88). -/
theorem step_arm (turn : s.sched = .host :: rest) (phase : s.hphase = .settle1)
    (waited : s.cfg.tSettle1 ≤ (s.tbMs.toNat + 2 ^ 32 - s.ht0.toNat) % 2 ^ 32) : step s = .next (initArm (s.setSched rest)) := by
  rw [step_settle1 turn phase, if_pos waited]

/-- INIT's last phase, its wait over (R89). -/
theorem step_clear (turn : s.sched = .host :: rest) (phase : s.hphase = .settle2)
    (waited : s.cfg.tSettle2 ≤ (s.tbMs.toNat + 2 ^ 32 - s.ht0.toNat) % 2 ^ 32) : step s = .next (initCleared (s.setSched rest)) := by
  rw [step_settle2 turn phase, if_pos waited]

/-- Settles O21, step by step: phase 1, an advance past the first wait, phase 2, an advance past the second, phase 3. -/
theorem initRunsToItsResponse : Obligations.InitRunsToItsResponse := by
  intro s i window n1 n2 l rest turns idle commands wait1 wait2
  refine ⟨_, step_init turns idle commands, _, step_advance_ms (n := n1) rfl, _, step_arm rfl rfl ?_,
    _, step_advance_ms (n := n2) rfl, _, step_clear rfl rfl ?_, ?_⟩
  · exact wait1.trans_eq (waited_after s.tbMs n1).symm
  · exact wait2.trans_eq (waited_after (s.tbMs + n1) n2).symm
  · refine State.ext_fields ?_ rfl rfl rfl rfl rfl rfl rfl rfl rfl rfl rfl rfl rfl rfl
    simp [initCleared, initArm, State.arm, initConfigure]
    rfl

end Sys2Proof.Machine
end

section
/-! SUPPORT and settlement. Runs of edges: the counter's record after a list of gaps, that a delivery schedule ends in it, what it counts, and the
statements about runs (R84, R92, R103). -/

namespace Sys2Proof.Machine

open Config

variable {s t : State} {k : Fin nPC} {rest : List Turn}

/-- The record of an armed counter after one edge behind each gap, the first gap measured from `now` (R81). -/
def PulseCounter.afterGaps (c : PulseCounter) (now : Time) : List Time → PulseCounter
  | [] => c
  | g :: gaps => (c.onEdge (now + g)).afterGaps (now + g) gaps

/-- Edges no more than the window apart count nothing further, however many they are (R84). -/
theorem PulseCounter.afterGaps_inside (c : PulseCounter) (gaps : List Time) (inside : ∀ g ∈ gaps, g ≤ c.dbw) :
    (c.afterGaps c.last gaps).count = c.count := by
  induction gaps generalizing c with
  | nil => rfl
  | cons g gaps ih =>
    obtain ⟨first, later⟩ := List.forall_mem_cons.mp inside
    have not_counted : ¬ c.dbw < c.last + g - c.last := by
      rw [BitVec.add_comm, BitVec.add_sub_cancel]
      exact BitVec.not_lt.mpr first
    have := ih (c.onEdge (c.last + g)) later
    rw [PulseCounter.onEdge_last] at this
    rw [PulseCounter.afterGaps, this, PulseCounter.onEdge_count, if_neg not_counted]

/-- Edges more than the window apart all count (R92). -/
theorem PulseCounter.afterGaps_outside (c : PulseCounter) (gaps : List Time) (outside : ∀ g ∈ gaps, c.dbw < g) :
    (c.afterGaps c.last gaps).count = c.count + BitVec.ofNat 32 gaps.length := by
  induction gaps generalizing c with
  | nil => exact (BitVec.add_zero _).symm
  | cons g gaps ih =>
    obtain ⟨first, later⟩ := List.forall_mem_cons.mp outside
    have counted : c.dbw < c.last + g - c.last := by
      rw [BitVec.add_comm, BitVec.add_sub_cancel]
      exact first
    have := ih (c.onEdge (c.last + g)) later
    rw [PulseCounter.onEdge_last] at this
    rw [PulseCounter.afterGaps, this, PulseCounter.onEdge_count, if_pos counted, List.length_cons, BitVec.ofNat_add,
      BitVec.add_assoc, BitVec.add_comm 1#32]

/-- After the last edge `let` is its time (R81). -/
theorem PulseCounter.afterGaps_last (c : PulseCounter) (gaps : List Time) :
    (c.afterGaps c.last gaps).last = c.last + gaps.sum := by
  induction gaps generalizing c with
  | nil => exact (BitVec.add_zero _).symm
  | cons g gaps ih =>
    have := ih (c.onEdge (c.last + g))
    rw [PulseCounter.onEdge_last] at this
    rw [PulseCounter.afterGaps, this, List.sum_cons, add_assoc]

/-- `let` after a run of edges that is not empty (R81). -/
theorem PulseCounter.afterGaps_cons_last (c : PulseCounter) (now g : Time) (gaps : List Time) :
    (c.afterGaps now (g :: gaps)).last = now + (g :: gaps).sum := by
  have later := (c.onEdge (now + g)).afterGaps_last gaps
  rw [PulseCounter.onEdge_last] at later
  rw [PulseCounter.afterGaps, later, List.sum_cons, add_assoc]

/-- The count of a run whose later gaps are inside the window: the first edge's own (R84). -/
theorem PulseCounter.afterGaps_cons_inside (c : PulseCounter) (now g : Time) (gaps : List Time) (inside : ∀ x ∈ gaps, x ≤ c.dbw) :
    (c.afterGaps now (g :: gaps)).count = if c.dbw < now + g - c.last then c.count + 1#32 else c.count := by
  rw [← PulseCounter.onEdge_count]
  exact (c.onEdge (now + g)).afterGaps_inside gaps inside

/-- The count of a run whose gaps are all outside the window: one more for every edge (R92). -/
theorem PulseCounter.afterGaps_cons_outside (c : PulseCounter) (now g : Time) (gaps : List Time)
    (first : c.dbw < now + g - c.last) (outside : ∀ x ∈ gaps, c.dbw < x) :
    (c.afterGaps now (g :: gaps)).count = c.count + BitVec.ofNat 32 (gaps.length + 1) := by
  have later := (c.onEdge (now + g)).afterGaps_outside gaps outside
  rw [PulseCounter.onEdge_last, PulseCounter.onEdge_count, if_pos first] at later
  rw [PulseCounter.afterGaps, later, BitVec.ofNat_add, BitVec.add_assoc, BitVec.add_comm 1#32]

/-- The state after one edge of an armed counter behind each gap. -/
def State.afterGaps (s : State) (k : Fin nPC) (gaps : List Time) : State :=
  (s.setTimeBase .edge (s.tbEdge + gaps.sum)).setCounter k ((s.counter k).afterGaps s.tbEdge gaps)

/-- ADVANCE of `tb_edge` on its turn (R80). -/
theorem step_advance_edge {n : Time} (turn : s.sched = .event 0x20#8 n :: rest) :
    step s = .next ((s.setSched rest).setTimeBase .edge (s.tbEdge + n)) :=
  step_event (i := .advance .edge n) turn rfl

/-- EDGE of an armed counter on its turn (R81). -/
theorem step_edge {ep : Word} (turn : s.sched = .event (edgeCode k) ep :: rest) (armed : (s.counter k).armed = true) :
    step s = .next ((s.setSched rest).setCounter k ((s.counter k).onEdge s.tbEdge)) := by
  rw [step_event turn (decode_edgeCode k ep), exec_edge_of_armed (s := s.setSched rest) armed]
  rfl

theorem State.afterGaps_nil (s : State) (k : Fin nPC) : s.afterGaps k [] = s := by
  have still : s.setTimeBase .edge (s.tbEdge + 0#32) = s := by rw [BitVec.add_zero]; rfl
  exact (congrArg (fun u : State => u.setCounter k (s.counter k)) still).trans (State.setCounter_counter s k)

theorem State.afterGaps_cons (s : State) (k : Fin nPC) (g : Time) (gaps : List Time) :
    s.afterGaps k (g :: gaps) =
      ((s.setTimeBase .edge (s.tbEdge + g)).setCounter k ((s.counter k).onEdge (s.tbEdge + g))).afterGaps k gaps := by
  simp only [State.afterGaps, State.counter_setCounter_self, List.sum_cons, PulseCounter.afterGaps, ← add_assoc]
  exact (State.setCounter_setCounter _ k _ _).symm

/-- A delivery schedule of an armed counter ends in the state its gaps say, with the schedule used up (R46, R81). -/
theorem runs_deliveries (gaps : List Time) (turns : s.sched = deliveries k gaps ++ rest) (armed : (s.counter k).armed = true) :
    Runs (2 * gaps.length) s ((s.setSched rest).afterGaps k gaps) := by
  induction gaps generalizing s with
  | nil =>
    rw [State.afterGaps_nil, ← show s.sched = rest from turns]
    rfl
  | cons g gaps ih =>
    refine ⟨_, step_advance_edge turns, _, step_edge rfl armed, ?_⟩
    rw [State.afterGaps_cons]
    exact ih rfl ((congrArg PulseCounter.armed (State.counter_setCounter_self _ k _)).trans armed)

@[simp] theorem State.afterGaps_counter (s : State) (k : Fin nPC) (gaps : List Time) :
    (s.afterGaps k gaps).counter k = (s.counter k).afterGaps s.tbEdge gaps :=
  State.counter_setCounter_self _ k _

/-- Settles O15: the first edge counts by its own elapsed time, and those behind it, each inside the window, count nothing. -/
theorem edgesInsideTheWindowCountAtMostOnce : Obligations.EdgesInsideTheWindowCountAtMostOnce := by
  intro s i g gaps rest turns armed inside
  refine ⟨_, runs_deliveries (g :: gaps) turns armed, rfl, ?_, ?_⟩
  · rw [State.pcs_getElem, State.afterGaps_counter]
    exact (s.counter i).afterGaps_cons_last s.tbEdge g gaps
  · rw [State.pcs_getElem, State.afterGaps_counter]
    exact (s.counter i).afterGaps_cons_inside s.tbEdge g gaps inside

/-- READ on the host's turn outside INIT (R85). -/
theorem step_read {arg : Word} {l : List (Word × Word)} (turn : s.sched = .host :: rest) (idle : s.hphase = .idle)
    (command : s.cmds = (0x02000000#32 ||| (BitVec.ofNat 32 k.val <<< 16), arg) :: l) :
    step s = .next (((s.setSched rest).setCmds l).push ⟨.ok, .r32 (s.counter k).count⟩) := by
  rw [step_command turn idle command (decode_readWord k arg)]
  exact readAnswersTheCount _ k

/-- Settles O16: every edge of the run counts, and READ answers the count. -/
theorem readEqualsTheNumberOfEdgesDelivered : Obligations.ReadEqualsTheNumberOfEdgesDelivered := by
  intro s i g gaps rest arg l turns idle commands armed zero first outside _
  refine ⟨_, runs_trans (runs_deliveries (g :: gaps) turns armed) (runs_one (step_read rfl idle commands)), rfl, ?_⟩
  have counted := (s.counter i).afterGaps_cons_outside s.tbEdge g gaps first outside
  rw [← State.pcs_getElem s i, zero, BitVec.zero_add] at counted
  rw [State.push_rsps, State.afterGaps_counter, ← counted]
  rfl

end Sys2Proof.Machine
end

section
/-! SUPPORT and settlement. Rounding: RND of zero, RND as a function of the rational, nearest with ties to even, and no subnormal for a quantity
that is at least 2^-126 (R107, D13). -/

namespace Sys2Proof.Machine

open Config

/-- RND of zero, whatever the denominator (R107). -/
@[simp] theorem rnd_zero (d : Nat) : rnd ⟨0, d⟩ = 0#32 := by
  simp [rnd, roundHalfEven, f32Infinity]

/-- Equal fractions have equal floors. -/
theorem div_eq_div_of_cross {a b c d : Nat} (hb : 0 < b) (hd : 0 < d) (cross : a * d = c * b) : a / b = c / d := by
  rw [← Nat.mul_div_mul_right a b hd, cross, Nat.mul_comm b d, Nat.mul_div_mul_right c d hb]

/-- Equal fractions round to equal integers. -/
theorem roundHalfEven_eq_of_cross {a b c d : Nat} (hb : 0 < b) (hd : 0 < d) (cross : a * d = c * b) :
    roundHalfEven a b = roundHalfEven c d := by
  rw [← roundHalfEven_scale a b d hd, cross, Nat.mul_comm b d, roundHalfEven_scale c d b hb]

/-- RND depends on the rational alone (R107). -/
theorem rnd_eq_of_cross {p q : Ratio} (hp : 0 < p.den) (hq : 0 < q.den) (cross : p.num * q.den = q.num * p.den) : rnd p = rnd q := by
  have scaled : p.num * 2 ^ 149 * q.den = q.num * 2 ^ 149 * p.den := by
    rw [Nat.mul_right_comm, cross, Nat.mul_right_comm]
  have floors := div_eq_div_of_cross hp hq scaled
  have rounded : ∀ m : Nat, 0 < m → roundHalfEven (p.num * 2 ^ 149) (p.den * m) = roundHalfEven (q.num * 2 ^ 149) (q.den * m) := by
    intro m hm
    refine roundHalfEven_eq_of_cross (Nat.mul_pos hp hm) (Nat.mul_pos hq hm) ?_
    rw [← Nat.mul_assoc, scaled, Nat.mul_assoc]
  unfold rnd
  dsimp only
  rw [floors, rounded _ (by positivity)]

/-- Settles O30. -/
theorem roundingDependsOnTheRationalAlone : Obligations.RoundingDependsOnTheRationalAlone :=
  ⟨rnd_zero, fun _ _ => rnd_eq_of_cross⟩

/-- A significand of 24 bits and an exponent are determined by their product. -/
theorem significand_unique {a b e f : Nat} (ha : 2 ^ 23 ≤ a) (ha' : a < 2 ^ 24) (hb : 2 ^ 23 ≤ b) (hb' : b < 2 ^ 24)
    (same : a * 2 ^ e = b * 2 ^ f) : a = b ∧ e = f := by
  have larger : ∀ {a b e f : Nat}, a < 2 ^ 24 → 2 ^ 23 ≤ b → a * 2 ^ e = b * 2 ^ f → f ≤ e := by
    intro a b e f ha hb same
    by_contra less
    have step : 2 ^ e * 2 ≤ 2 ^ f := by
      rw [← Nat.pow_succ]
      exact Nat.pow_le_pow_right (by decide) (by omega)
    have := calc a * 2 ^ e < 2 ^ 24 * 2 ^ e := Nat.mul_lt_mul_of_pos_right ha (by positivity)
      _ = 2 ^ 23 * (2 ^ e * 2) := by ring
      _ ≤ b * 2 ^ f := Nat.mul_le_mul hb step
    omega
  obtain rfl : e = f := Nat.le_antisymm (larger hb' ha same.symm) (larger ha' hb same)
  exact ⟨Nat.eq_of_mul_eq_mul_right (by positivity) same, rfl⟩

/-- Two patterns that stand for one number are one pattern. -/
theorem f32Units_injective {u v : Word} (same : f32Units u = f32Units v) : u = v := by
  have normal : ∀ n e : Nat, 2 ^ 23 ≤ (2 ^ 23 + n % 2 ^ 23) * 2 ^ e := fun n e =>
    (Nat.le_add_right _ _).trans (Nat.le_mul_of_pos_right _ (by positivity))
  unfold f32Units at same
  apply BitVec.eq_of_toNat_eq
  generalize u.toNat = m at same ⊢
  generalize v.toNat = n at same ⊢
  split at same <;> split at same
  · exact same
  · have := normal n (n / 2 ^ 23 - 1)
    omega
  · have := normal m (m / 2 ^ 23 - 1)
    omega
  · obtain ⟨significand, exponent⟩ := significand_unique (by omega) (by omega) (by omega) (by omega) same
    omega

/-- A number below the first significand of the grid of spacing `2^k` is farther from `n` than the rounded quotient, if `n` is not below. -/
theorem roundHalfEven_nearer {n d k x : Nat} (hd : 0 < d) (above : 2 ^ 23 * (d * 2 ^ k) ≤ n) (below : x < 2 ^ 23 * 2 ^ k) :
    ((roundHalfEven n (d * 2 ^ k) * (d * 2 ^ k : Nat) : Int) - n).natAbs < ((x * d : Int) - n).natAbs := by
  obtain ⟨nearest, -⟩ := roundHalfEven_nearest n (d * 2 ^ k) (2 ^ 23) (by positivity)
  have farther : x * d < 2 ^ 23 * (d * 2 ^ k) := calc
    x * d < 2 ^ 23 * 2 ^ k * d := Nat.mul_lt_mul_of_pos_right below hd
    _ = 2 ^ 23 * (d * 2 ^ k) := by ring
  have first : (((2 ^ 23 : Nat) : Int) * (d * 2 ^ k : Nat) : Int) = ((2 ^ 23 * (d * 2 ^ k) : Nat) : Int) := (Nat.cast_mul _ _).symm
  have number : (x * d : Int) = ((x * d : Nat) : Int) := (Nat.cast_mul _ _).symm
  rw [first] at nearest
  rw [number]
  omega

/-- Settles O31: on the grid of the result's exponent the rounded quotient is nearest; a number off that grid lies below its first
significand, and so is farther. -/
theorem roundingIsToNearestTiesToEven : Obligations.RoundingIsToNearestTiesToEven := by
  intro q hd bound
  obtain ⟨finite, units, parity, normal⟩ := f32Units_rnd q hd bound
  refine ⟨finite, fun v _ => ?_⟩
  generalize Nat.log2 (q.num * 2 ^ 149 / q.den) - 23 = k at units parity normal
  have scaled : (q.num * 2 ^ 149 : Int) = ((q.num * 2 ^ 149 : Nat) : Int) := by push_cast; rfl
  have on_grid : ∀ m : Nat, (((m * 2 ^ k : Nat) : Int) * q.den : Int) = (m * (q.den * 2 ^ k : Nat) : Int) := by
    intro m
    push_cast
    ring
  rw [scaled]
  generalize q.num * 2 ^ 149 = n at units parity normal
  have grid_or_below : (∃ m, f32Units v = m * 2 ^ k) ∨ (f32Units v < 2 ^ 23 * 2 ^ k ∧ 0 < k) := by
    rcases k.eq_zero_or_pos with rfl | normal_exponent
    · exact .inl ⟨f32Units v, (Nat.mul_one _).symm⟩
    · exact (f32Units_scaled v k).imp_right fun below => ⟨below, normal_exponent⟩
  rcases grid_or_below with ⟨m, grid⟩ | ⟨below, normal_exponent⟩
  · obtain ⟨nearest, tie⟩ := roundHalfEven_nearest n (q.den * 2 ^ k) m (by positivity)
    rw [units, grid, on_grid, on_grid]
    refine ⟨nearest, fun same => (tie same).imp ?_ ?_⟩
    · intro same_significand
      exact f32Units_injective (by rw [grid, units, same_significand])
    · intro even
      rw [parity, even]
  · have nearer := roundHalfEven_nearer hd (normal normal_exponent) below
    rw [units, on_grid]
    exact ⟨nearer.le, fun same => absurd same nearer.ne⟩

/-- A rational that is at least 2^-126, and not too great, rounds to a normal number (R107, D12). -/
theorem rnd_normal {q : Ratio} (hd : 0 < q.den) (least : q.den ≤ q.num * 2 ^ 126) (bound : q.num < q.den * 2 ^ 127) :
    0x00800000 ≤ (rnd q).toNat ∧ (rnd q).toNat < 0x7F800000 := by
  obtain ⟨finite, units, -, normal⟩ := f32Units_rnd q hd bound
  refine ⟨by_contra fun subnormal => ?_, finite⟩
  rw [f32Units, if_pos (by omega)] at units
  generalize Nat.log2 (q.num * 2 ^ 149 / q.den) - 23 = k at units normal
  have significand : 2 ^ 23 ≤ roundHalfEven (q.num * 2 ^ 149) (q.den * 2 ^ k) := by
    refine le_trans ?_ (roundHalfEven_bounds _ _).1
    rw [Nat.le_div_iff_mul_le (by positivity)]
    rcases k.eq_zero_or_pos with rfl | normal_exponent
    · omega
    · exact normal normal_exponent
  have := significand.trans (Nat.le_mul_of_pos_right _ (show 0 < 2 ^ k by positivity))
  omega

end Sys2Proof.Machine
end

section
/-! SUPPORT and settlement. Unit WM: START and QUANT of a window as the state they leave, the two forms of a quantity, and the statements about
windows (R101 to R110). -/

namespace Sys2Proof.Machine

open Config

variable {s t : State} {rest : List Turn}

/-- The state START leaves but for its response (R101). -/
def State.restarted (s : State) (w : Fin nWin) : State :=
  s.setWindow w ((s.window w).restarted (winKind w) (s.counter (winCtr w)).count s.tbMs)

/-- START of a window (R101). -/
theorem exec_start_ofNat (w : Fin nWin) (s : State) :
    exec (.start (BitVec.ofNat 8 w.val)) s = .next ((s.restarted w).push ⟨.ok, .r32 0#32⟩) := by
  rw [exec_start, selected_ofNat w (by decide)]
  rfl

/-- QUANT of a window that START has started (R102). -/
theorem exec_quant_of_started {w : Fin nWin} (started : (s.window w).started = true) :
    exec (.quant (BitVec.ofNat 8 w.val)) s = .next (s.push ⟨(s.quantity w).1, .r32 (s.quantity w).2⟩) := by
  rw [exec_quant, selected_ofNat w (by decide), State.isStarted_eq, started, guarded_true, respond_eq]

/-- QUANT of a window that START has not started (R110). -/
theorem exec_quant_of_unstarted {w : Fin nWin} (unstarted : (s.window w).started = false) :
    exec (.quant (BitVec.ofNat 8 w.val)) s = .next (s.push ⟨.precond, .r32 0#32⟩) := by
  rw [exec_quant, selected_ofNat w (by decide), State.isStarted_eq, unstarted, guarded_false]

/-- The quantity of the rain window (R103). -/
theorem quantity_rain (s : State) : s.quantity 0 = (.ok, rnd ⟨(s.delta 0).toNat * 1397, 10000⟩) := rfl

/-- The quantity of the wind window with no time elapsed (R105). -/
theorem quantity_wind_of_still (still : s.tbMs = (s.window 1).baseTime) : s.quantity 1 = (.notReady, 0#32) :=
  if_pos (by rw [elapsed, still, BitVec.sub_self])

/-- The quantity of the wind window (R104). -/
theorem quantity_wind_of_moved (moved : s.tbMs ≠ (s.window 1).baseTime) :
    s.quantity 1 = (.ok, rnd ⟨(s.delta 1).toNat * 666667, (elapsed s.tbMs (s.window 1).baseTime).toNat * 1000⟩) :=
  if_neg fun zero => moved (BitVec.sub_eq_iff_eq_add.mp zero |>.trans (BitVec.zero_add _))

/-- The counted edges of a window on plain numbers (R108). -/
theorem delta_toNat (s : State) (w : Fin nWin) :
    (s.delta w).toNat = ((s.counter (winCtr w)).count.toNat + 2 ^ 32 - (s.window w).baseCount.toNat) % 2 ^ 32 :=
  elapsed_toNat _ _

/-- Settles O24: the two windows with their counters and kinds (R6). -/
theorem startTakesTheBaseline : Obligations.StartTakesTheBaseline := by
  intro s
  exact ⟨exec_start_ofNat 0 s, exec_start_ofNat 1 s⟩

/-- Settles O25. -/
theorem accumulatedQuantity : Obligations.AccumulatedQuantity := by
  intro s started
  have answer := exec_quant_of_started (w := 0) started
  rw [quantity_rain] at answer
  constructor
  · rw [delta_toNat] at answer
    exact answer
  · intro ten
    have delta : s.delta 0 = 10#32 := by
      rw [State.delta]
      exact (congrArg (· - _) ten).trans (by rw [BitVec.add_comm]; exact BitVec.add_sub_cancel _ _)
    rw [delta, show rnd ⟨(10#32).toNat * 1397, 10000⟩ = 0x3FB2D0E5#32 by decide] at answer
    exact answer

/-- Settles O26. -/
theorem Windows.rateQuantity : Obligations.RateQuantity := by
  intro s started
  have answer := exec_quant_of_started (w := 1) started
  constructor
  · intro still
    rw [quantity_wind_of_still still] at answer
    exact answer
  · intro moved
    rw [quantity_wind_of_moved moved, delta_toNat, elapsed_toNat] at answer
    exact answer

/-- RECORD of a histogram that HNEW has not created (R147). -/
theorem exec_record_of_invalid {h : Fin nHist} (invalid : (s.histogram h).valid = false) :
    exec (.record (BitVec.ofNat 8 h.val)) s = .next (s.push ⟨.precond, .r32 0#32⟩) := by
  rw [exec_record, selected_ofNat h (by decide), State.isValid_eq, invalid, guarded_false]

/-- MODE of a histogram that HNEW has not created (R147). -/
theorem exec_mode_of_invalid {h : Fin nHist} (invalid : (s.histogram h).valid = false) :
    exec (.mode (BitVec.ofNat 8 h.val)) s = .next (s.push ⟨.precond, .r32 0#32⟩) := by
  rw [exec_mode, execMode, selected_ofNat h (by decide), State.isValid_eq, invalid, guarded_false]

/-- Settles O27. -/
theorem unmetPreconditionChangesNothing : Obligations.UnmetPreconditionChangesNothing := by
  constructor
  · intro s w unstarted
    exact exec_quant_of_unstarted unstarted
  · intro s h invalid
    exact ⟨exec_record_of_invalid invalid, exec_mode_of_invalid invalid⟩

/-- After START the window is started, with the count as its baseline (R101). -/
theorem State.restarted_window (s : State) (w : Fin nWin) :
    ((s.restarted w).window w).started = true ∧ ((s.restarted w).window w).baseCount = (s.counter (winCtr w)).count := by
  rw [State.restarted, State.window_setWindow_self]
  cases winKind w <;> exact ⟨rfl, rfl⟩

/-- The wind window's baseline in time (R101). -/
theorem State.restarted_wind_baseTime (s : State) : ((s.restarted 1).window 1).baseTime = s.tbMs := by
  rw [State.restarted, State.window_setWindow_self]
  rfl

/-- A window that START has just started has counted nothing (R106). -/
theorem State.restarted_delta (s : State) (w : Fin nWin) : (s.restarted w).delta w = 0#32 := by
  obtain ⟨-, base⟩ := s.restarted_window w
  rw [State.delta, base]
  exact BitVec.sub_self _

/-- Settles O28: no edge since START is a count difference of zero, and no time an elapsed time of zero. -/
theorem restartThenQueryIsZero : Obligations.RestartThenQueryIsZero := by
  intro s
  obtain ⟨rain_started, -⟩ := s.restarted_window 0
  obtain ⟨wind_started, -⟩ := s.restarted_window 1
  refine ⟨?_, ?_, ?_⟩
  · refine ⟨_, _, exec_start_ofNat 0 s, exec_quant_of_started (w := 0) rain_started, ?_⟩
    have none : ((s.restarted 0).push ⟨.ok, .r32 0#32⟩).delta 0 = 0#32 := s.restarted_delta 0
    rw [State.push_rsps, quantity_rain, none, BitVec.toNat_zero, Nat.zero_mul, rnd_zero]
  · refine ⟨_, _, exec_start_ofNat 1 s, exec_quant_of_started (w := 1) wind_started, ?_⟩
    rw [State.push_rsps, quantity_wind_of_still s.restarted_wind_baseTime.symm]
  · intro n moves
    refine ⟨_, _, _, exec_start_ofNat 1 s, exec_advance .ms n _, exec_quant_of_started (w := 1) wind_started, ?_⟩
    have moved : s.tbMs + n ≠ ((s.restarted 1).window 1).baseTime := by
      rw [s.restarted_wind_baseTime]
      simpa using moves
    have none : (((s.restarted 1).push ⟨.ok, .r32 0#32⟩).setTimeBase .ms (s.tbMs + n)).delta 1 = 0#32 := s.restarted_delta 1
    rw [State.push_rsps, quantity_wind_of_moved moved]
    refine congrArg (fun x => Response.mk .ok (.r32 x) :: _) ?_
    refine (congrArg (fun d : Count => rnd ⟨d.toNat * 666667, _⟩) none).trans ?_
    rw [BitVec.toNat_zero, Nat.zero_mul, rnd_zero]

/-- QUANT's response (R102, R110). -/
def State.quantResponse (s : State) (w : Fin nWin) : Response :=
  if (s.window w).started then ⟨(s.quantity w).1, .r32 (s.quantity w).2⟩ else ⟨.precond, .r32 0#32⟩

/-- QUANT drives its response and changes nothing else (R102). -/
theorem exec_quant_ofNat (w : Fin nWin) (s : State) :
    exec (.quant (BitVec.ofNat 8 w.val)) s = .next (s.push (s.quantResponse w)) := by
  cases started : (s.window w).started
  · rw [exec_quant_of_unstarted started, State.quantResponse, started]
    rfl
  · rw [exec_quant_of_started started, State.quantResponse, started]
    rfl

/-- QUANT's response depends on the window, the counters and `tb_ms` alone (R102). -/
theorem quantResponse_congr {w : Fin nWin} (window : t.window w = s.window w) (pcs : t.pcs = s.pcs) (tbMs : t.tbMs = s.tbMs) :
    t.quantResponse w = s.quantResponse w := by
  simp only [State.quantResponse, State.quantity, State.delta, State.counter, window, pcs, tbMs]

/-- What START and QUANT of one window leave of the other (R19, R110). -/
theorem exec_other_window {w v : Fin nWin} (other : w ≠ v) {i : Instr}
    (of_w : i = .start (BitVec.ofNat 8 w.val) ∨ i = .quant (BitVec.ofNat 8 w.val)) (h : exec i s = .next t) :
    t.window v = s.window v ∧ t.pcs = s.pcs ∧ t.tbMs = s.tbMs := by
  rcases of_w with rfl | rfl
  · rw [exec_start_ofNat] at h
    cases h
    exact ⟨State.window_setWindow_ne s w v _ other, rfl, rfl⟩
  · rw [exec_quant_ofNat] at h
    cases h
    exact ⟨rfl, rfl, rfl⟩

/-- Settles O29: nothing QUANT of the other window reads has changed. -/
theorem windowsAreIndependent : Obligations.WindowsAreIndependent := by
  intro s t w v i other of_w h
  obtain ⟨window, pcs, tbMs⟩ := exec_other_window other of_w h
  refine ⟨window, pcs, _, _, _, exec_quant_ofNat v s, rfl, exec_quant_ofNat v t, ?_⟩
  rw [State.push_rsps, quantResponse_congr window pcs tbMs]

/-- A rain quantity that is not zero is at least 0.1397 (R103). -/
theorem rain_zero_or_normal (delta : Count) :
    rnd ⟨delta.toNat * 1397, 10000⟩ = 0#32 ∨
      (0x00800000 ≤ (rnd ⟨delta.toNat * 1397, 10000⟩).toNat ∧ (rnd ⟨delta.toNat * 1397, 10000⟩).toNat < 0x7F800000) := by
  have := delta.isLt
  rcases delta.toNat.eq_zero_or_pos with none | some
  · rw [none, Nat.zero_mul, rnd_zero]
    exact .inl rfl
  · exact .inr (rnd_normal (by dsimp only; omega) (by dsimp only; omega) (by dsimp only; omega))

/-- A wind quantity that is not zero is at least 666.667 over 2^32 - 1 (R104). -/
theorem wind_zero_or_normal (delta : Count) {el : Time} (moved : el ≠ 0#32) :
    rnd ⟨delta.toNat * 666667, el.toNat * 1000⟩ = 0#32 ∨
      (0x00800000 ≤ (rnd ⟨delta.toNat * 666667, el.toNat * 1000⟩).toNat ∧
        (rnd ⟨delta.toNat * 666667, el.toNat * 1000⟩).toNat < 0x7F800000) := by
  have := delta.isLt
  have := el.isLt
  have : el.toNat ≠ 0 := fun zero => moved (BitVec.eq_of_toNat_eq zero)
  rcases delta.toNat.eq_zero_or_pos with none | some
  · rw [none, Nat.zero_mul, rnd_zero]
    exact .inl rfl
  · exact .inr (rnd_normal (by dsimp only; omega) (by dsimp only; omega) (by dsimp only; omega))

/-- An OK quantity is +0.0 or normal (R107, D12). -/
theorem quantity_zero_or_normal {w : Fin nWin} (ok : (s.quantity w).1 = .ok) :
    (s.quantity w).2 = 0#32 ∨ (0x00800000 ≤ (s.quantity w).2.toNat ∧ (s.quantity w).2.toNat < 0x7F800000) := by
  match w with
  | 0 =>
    rw [quantity_rain]
    exact rain_zero_or_normal _
  | 1 =>
    by_cases still : s.tbMs = (s.window 1).baseTime
    · rw [quantity_wind_of_still still] at ok
      cases ok
    · rw [quantity_wind_of_moved still]
      exact wind_zero_or_normal _ fun zero => still ((BitVec.sub_eq_iff_eq_add.mp zero).trans (BitVec.zero_add _))

/-- Settles O32: the response is OK only with a quantity of a started window. -/
theorem quantitiesAreZeroOrNormal : Obligations.QuantitiesAreZeroOrNormal := by
  intro s t w v h answer
  rw [exec_quant_ofNat] at h
  cases h
  have response : s.quantResponse w = ⟨.ok, .r32 v⟩ := Option.some.inj answer
  unfold State.quantResponse at response
  split at response
  · obtain ⟨ok, value⟩ := Response.mk.inj response
    rw [← Payload.r32.inj value]
    exact quantity_zero_or_normal ok
  · cases response

/-- START of the rain window on the host's turn outside INIT (R101). -/
theorem step_start_rain {arg : Word} {l : List (Word × Word)} (turn : s.sched = .host :: rest) (idle : s.hphase = .idle)
    (command : s.cmds = (0x10000000#32, arg) :: l) :
    step s = .next ((((s.setSched rest).setCmds l).restarted 0).push ⟨.ok, .r32 0#32⟩) :=
  (step_command (i := .start 0#8) turn idle command rfl).trans (exec_start_ofNat 0 _)

/-- QUANT of the rain window, started, on the host's turn outside INIT (R103). -/
theorem step_quant_rain {arg : Word} {l : List (Word × Word)} {n : Nat} (turn : s.sched = .host :: rest) (idle : s.hphase = .idle)
    (command : s.cmds = (0x11000000#32, arg) :: l) (started : (s.window 0).started = true) (counted : (s.delta 0).toNat = n) :
    step s = .next (((s.setSched rest).setCmds l).push ⟨.ok, .r32 (rnd ⟨n * 1397, 10000⟩)⟩) := by
  rw [← counted]
  exact (step_command (i := .quant 0#8) turn idle command rfl).trans
    (exec_quant_of_started (s := (s.setSched rest).setCmds l) (w := 0) started)

/-- The rain window's count difference, its baseline taken before a run of edges each outside the window (R92, R108). -/
theorem delta_of_run {u : State} {g : Time} {gaps : List Time} (base : (u.window 0).baseCount = (s.counter 0).count)
    (run : u.counter 0 = (s.counter 0).afterGaps s.tbEdge (g :: gaps))
    (first : (s.counter 0).dbw < s.tbEdge + g - (s.counter 0).last) (outside : ∀ x ∈ gaps, (s.counter 0).dbw < x)
    (bound : gaps.length + 1 < 2 ^ 32) : (u.delta 0).toNat = gaps.length + 1 := by
  have all := (s.counter 0).afterGaps_cons_outside s.tbEdge g gaps first outside
  have difference : u.delta 0 = (s.counter 0).count + BitVec.ofNat 32 (gaps.length + 1) - (s.counter 0).count := by
    rw [← all, ← run, ← base]
    rfl
  rw [difference, BitVec.add_comm, BitVec.add_sub_cancel, BitVec.toNat_ofNat, Nat.mod_eq_of_lt bound]

/-- Settles O33: START takes the count as the baseline, every edge of the run counts, and QUANT takes the difference across the wrap. -/
theorem rainIsTheNumberOfEdgesTimesTheConstant : Obligations.RainIsTheNumberOfEdgesTimesTheConstant := by
  intro s g gaps a1 a2 l rest turns idle commands armed first outside bound
  obtain ⟨started, base⟩ := s.restarted_window 0
  refine ⟨_, ⟨_, step_start_rain turns idle commands, runs_trans (runs_deliveries (k := 0) (g :: gaps) rfl armed)
    (runs_one (step_quant_rain rfl idle rfl started ?_))⟩, rfl⟩
  exact delta_of_run base (State.afterGaps_counter _ 0 _) first outside bound

end Sys2Proof.Machine
end

section
/-! SUPPORT and settlement. Unit CL: CLASSIFY's response by what the scan finds, the document's two samples, the lookups, and the order of the two
groups (R121 to R129). -/

namespace Sys2Proof.Machine

open Config

variable {s t : State} {p : Parameters} {raw : Word} {k : Fin nLevels}

/-- No match is a difference above `TOL` (R123). -/
theorem levelMatches_eq_false_iff (p : Parameters) (raw : Int) (k : Fin nLevels) :
    levelMatches p raw k = false ↔ 10 < (raw - p.cal[k].ref).natAbs := by
  rw [← Bool.not_eq_true, levelMatches_iff, Nat.not_le, tol]

/-- CLASSIFY's response when the scan finds a level (R122). -/
theorem classResponse_of_some (found : classify p raw.toInt = some k) :
    classResponse p raw = ⟨.ok, .r32 (BitVec.ofNat 32 k.val)⟩ := by
  rw [classResponse, rawSample, found]
  rfl

/-- CLASSIFY's response when it finds none (R122). -/
theorem classResponse_of_none (found : classify p raw.toInt = none) : classResponse p raw = ⟨.noMatch, .r32 0x000000FF#32⟩ := by
  rw [classResponse, rawSample, found]
  rfl

/-- Settles O34, by what the scan finds. -/
theorem classifyAnswersTheFirstMatchInScanOrder : Obligations.ClassifyAnswersTheFirstMatchInScanOrder := by
  intro s raw
  rw [exec_classify]
  constructor
  · intro p within before
    have found := classify_first s.cfg raw.toInt p ((levelMatches_iff _ _ _).mpr within)
      fun q earlier => (levelMatches_eq_false_iff _ _ _).mpr (before q earlier)
    rw [classResponse_of_some found]
    rfl
  · intro outside
    have found := classify_none s.cfg raw.toInt fun p => (levelMatches_eq_false_iff _ _ _).mpr (outside p)
    rw [classResponse_of_none found]
    rfl

/-- The scan finds the only level that matches, wherever it stands in the order (R122). -/
theorem classify_of_only {x : Int} {q : Fin nLevels} (position : p.scan[q] = k) (within : levelMatches p x k = true)
    (only : ∀ j : Fin nLevels, j ≠ k → levelMatches p x j = false) : classify p x = some k := by
  cases found : classify p x with
  | none =>
    have missed := List.find?_eq_none.mp found k (position ▸ Vector.mem_toList_iff.mpr (Vector.getElem_mem q.isLt))
    exact absurd within missed
  | some j =>
    obtain ⟨_, -, matched, -⟩ := classify_some found
    by_contra other
    rw [only j fun same => other (congrArg some same)] at matched
    cases matched

/-- In an admissible table level 0 is 539, and stands somewhere in the scan order (R129). -/
theorem admissible_north (admissible : p.Admissible) : p.cal[(0 : Fin nLevels)].ref = 539 ∧ ∃ q : Fin nLevels, p.scan[q] = 0 := by
  obtain ⟨north, -, -, -, -, scanned⟩ := admissible
  refine ⟨by rw [north]; rfl, ?_⟩
  obtain ⟨q, bound, position⟩ := List.mem_iff_getElem.mp (List.mem_of_mem_take scanned)
  exact ⟨⟨q, by simpa using bound⟩, by simpa using position⟩

/-- Settles O35: no reference lies in 540 to 560, and level 0 is at 539. -/
theorem theDocumentsTwoSamples : Obligations.TheDocumentsTwoSamples := by
  intro s admissible
  have ⟨_, no_reference, _⟩ := admissible
  obtain ⟨north, q, position⟩ := admissible_north admissible
  rw [exec_classify, exec_classify]
  constructor
  · have sample : (550#32 : Word).toInt = 550 := by decide
    have found : classify s.cfg (550#32 : Word).toInt = none := by
      refine classify_none _ _ fun p => (levelMatches_eq_false_iff _ _ _).mpr ?_
      have := no_reference s.cfg.scan[p]
      omega
    rw [classResponse_of_none found]
    rfl
  · intro others
    have sample : (539#32 : Word).toInt = 539 := by decide
    have found : classify s.cfg (539#32 : Word).toInt = some 0 := by
      rw [sample]
      refine classify_of_only position ?_ fun j other => (levelMatches_eq_false_iff _ _ _).mpr (others j other)
      rw [levelMatches_iff, north]
      decide
    rw [classResponse_of_some found]
    rfl

/-- A level's own number names it (R125). -/
theorem levelOf_ofNat (k : Fin nLevels) : levelOf (BitVec.ofNat 32 k.val) = some k := by
  have number : (BitVec.ofNat 32 k.val).toNat = k.val := by
    rw [BitVec.toNat_ofNat, Nat.mod_eq_of_lt (k.isLt.trans (by decide))]
  rw [levelOf_of_lt (by rw [number]; exact k.isLt)]
  exact congrArg some (Fin.ext number)

/-- Settles O36, by whether the index names a level. -/
theorem lookupsAnswerTheRecordOrTheSentinel : Obligations.LookupsAnswerTheRecordOrTheSentinel := by
  constructor
  · intro s k
    exact ⟨exec_idx2deg_of_some s (levelOf_ofNat k), exec_idx2lbl_of_some s (levelOf_ofNat k)⟩
  · intro s index outside
    exact ⟨exec_idx2deg_of_none s (levelOf_of_ge outside), exec_idx2lbl_of_none s (levelOf_of_ge outside)⟩

/-- Level numbers differ as response values (R67). -/
theorem ofNat_level_injective {j k : Fin nLevels} (same : BitVec.ofNat 32 j.val = BitVec.ofNat 32 k.val) : j = k := by
  have levels := congrArg levelOf same
  rw [levelOf_ofNat, levelOf_ofNat] at levels
  exact Option.some.inj levels

/-- An OK response of CLASSIFY with a level's number is that level found (R122). -/
theorem classify_of_classResponse (answer : classResponse p raw = ⟨.ok, .r32 (BitVec.ofNat 32 k.val)⟩) :
    classify p raw.toInt = some k := by
  cases found : classify p raw.toInt with
  | none =>
    rw [classResponse_of_none found] at answer
    cases answer
  | some j =>
    rw [classResponse_of_some found] at answer
    obtain ⟨-, value⟩ := Response.mk.inj answer
    rw [ofNat_level_injective (Payload.r32.inj value)]

/-- A scan order with no level twice has every level somewhere (R129). -/
theorem scan_surjective (distinct : p.scan.toList.Nodup) (k : Fin nLevels) : ∃ q : Fin nLevels, p.scan[q] = k := by
  have injective : Function.Injective fun q : Fin nLevels => p.scan[q] := by
    intro q r same
    refine Fin.ext ((List.Nodup.getElem_inj_iff distinct (hi := by simp) (hj := by simp)).mp ?_)
    simpa using same
  exact Finite.surjective_of_injective injective k

/-- Settles O59: the primary levels stand in the first eight places of the scan, so all of them before an intercardinal level. -/
theorem primaryPointsAreFoundFirst : Obligations.PrimaryPointsAreFoundFirst := by
  intro s t raw k admissible h answer intercardinal j primary
  obtain ⟨-, -, -, distinct, primary_first, -⟩ := admissible
  rw [exec_classify] at h
  cases h
  obtain ⟨p, rfl, -, before⟩ := classify_some (classify_of_classResponse (List.cons.inj answer).1)
  obtain ⟨q, rfl⟩ := scan_surjective distinct j
  have early : q.val < 8 := (primary_first q).mp primary
  have late : ¬ p.val < 8 := by
    rw [← primary_first p, intercardinal]
    decide
  exact (levelMatches_eq_false_iff _ _ _).mp (before q (by rw [Fin.lt_def]; omega))

end Sys2Proof.Machine
end

section
/-! SUPPORT and settlement. Unit DN: HNEW and RECORD as the state they leave, runs of RECORD, and the denoiser's scenario (R141 to R149). -/

namespace Sys2Proof.Machine

open Config

variable {s t : State} {rest : List Turn} {l : List (Word × Word)}

/-- HNEW of a histogram (R141). -/
theorem exec_hnew_ofNat (h : Fin nHist) (s : State) :
    exec (.hnew (BitVec.ofNat 8 h.val)) s = .next ((s.setHistogram h Histogram.fresh).push ⟨.ok, .r32 0#32⟩) := by
  rw [exec_hnew, selected_ofNat h (by decide), respond_eq]

/-- Settles O39: there is one histogram, so writing it is writing the whole list of them. -/
theorem hnewCreatesSixteenZeros : Obligations.HnewCreatesSixteenZeros := by
  intro s
  have one : s.hists.set (0 : Fin nHist) Histogram.fresh = #v[Histogram.fresh] := by
    ext j hj
    obtain rfl : j = 0 := Nat.lt_one_iff.mp hj
    simp
  refine (exec_hnew_ofNat 0 s).trans ?_
  rw [State.setHistogram, one]
  rfl

/-- RECORD of a histogram that HNEW has created, by the sample drawn (R142). -/
theorem exec_record_of_valid {h : Fin nHist} (valid : (s.histogram h).valid = true) {a : Word} {later : List Word} {n : Nat}
    (drawn : s.adcAnswer = a ∧ s.adcAdvance = s.setAdc later n) :
    exec (.record (BitVec.ofNat 8 h.val)) s =
      .next (((s.setAdc later n).setHistogram h ((s.histogram h).recorded (classify s.cfg a.toInt))).push ⟨.ok, .r32 0#32⟩) := by
  obtain ⟨answer, advance⟩ := drawn
  rw [exec_record, selected_ofNat h (by decide), State.isValid_eq, valid, guarded_true, respond_eq, answer, advance, rawSample]

/-- Settles O40, by where the sample comes from and what the scan finds. -/
theorem recordCountsTheClassOfOneSample : Obligations.RecordCountsTheClassOfOneSample := by
  intro s a later n valid source
  have drawn : s.adcAnswer = a ∧ s.adcAdvance = s.setAdc later n := by
    rcases source with ⟨supplied, rfl⟩ | ⟨empty, rfl, rfl, rfl⟩
    · exact State.adc_cons supplied
    · exact State.adc_nil empty
  have recorded := exec_record_of_valid (h := 0) valid drawn
  constructor
  · intro k found
    have plus_one : BitVec.ofNat 32 ((s.hists[0].buckets[k].toNat + 1) % 2 ^ 32) = s.hists[0].buckets[k] + 1#32 :=
      ofNat_add_mod _ 1#32
    rw [found] at recorded
    rw [plus_one]
    exact recorded
  · intro found
    rw [found] at recorded
    refine recorded.trans ?_
    exact congrArg (fun u : State => Host.Outcome.next (u.push ⟨.ok, .r32 0#32⟩)) (State.setHistogram_histogram (s.setAdc later n) 0)

/-! ### Runs of RECORD -/

/-- HNEW on the host's turn outside INIT (R141). -/
theorem step_hnew {arg : Word} (turn : s.sched = .host :: rest) (idle : s.hphase = .idle) (command : s.cmds = (0x30000000#32, arg) :: l) :
    step s = .next ((((s.setSched rest).setCmds l).setHistogram 0 Histogram.fresh).push ⟨.ok, .r32 0#32⟩) :=
  (step_command (i := .hnew 0#8) turn idle command rfl).trans (exec_hnew_ofNat 0 _)

/-- RECORD of a created histogram with a sample supplied, on the host's turn outside INIT (R142). -/
theorem step_record {arg a : Word} {later : List Word} (turn : s.sched = .host :: rest) (idle : s.hphase = .idle)
    (command : s.cmds = (0x31000000#32, arg) :: l) (valid : (s.histogram 0).valid = true) (supplied : s.adc = a :: later) :
    step s = .next (((((s.setSched rest).setCmds l).setAdc later s.adcDraws).setHistogram 0
      ((s.histogram 0).recorded (classify s.cfg a.toInt))).push ⟨.ok, .r32 0#32⟩) :=
  (step_command (i := .record 0#8) turn idle command rfl).trans
    (exec_record_of_valid (s := (s.setSched rest).setCmds l) (h := 0) valid (State.adc_cons supplied))

/-- MODE of a created histogram on the host's turn outside INIT (R145). -/
theorem step_mode {arg : Word} {best : Nat} (turn : s.sched = .host :: rest) (idle : s.hphase = .idle)
    (command : s.cmds = (0x32000000#32, arg) :: l) (valid : (s.histogram 0).valid = true) (found : (s.histogram 0).mode = best) :
    step s = .next (((s.setSched rest).setCmds l).push ⟨(modeAnswer best).1, .r32 (modeAnswer best).2⟩) := by
  rw [← found]
  exact (step_command (i := .mode 0#8) turn idle command rfl).trans
    (exec_mode_of_valid (s := (s.setSched rest).setCmds l) (i := 0) valid)

/-- A histogram after a list of samples, each recorded or dropped (R142). -/
def Histogram.recordedAll (p : Parameters) (x : Histogram) (samples : List Word) : Histogram :=
  samples.foldl (fun y a => y.recorded (classify p a.toInt)) x

/-- One RECORD for each sample supplied, on as many host turns (R142, R149). -/
theorem runs_records (samples : List Word) {later : List Word} (turns : s.sched = List.replicate samples.length .host ++ rest)
    (idle : s.hphase = .idle) (commands : s.cmds = List.replicate samples.length (0x31000000#32, 0#32) ++ l)
    (supplied : s.adc = samples ++ later) (valid : (s.histogram 0).valid = true) :
    ∃ t, Runs samples.length s t ∧ t.sched = rest ∧ t.cmds = l ∧ t.hphase = .idle ∧
      t.histogram 0 = (s.histogram 0).recordedAll s.cfg samples := by
  induction samples generalizing s with
  | nil => exact ⟨s, rfl, turns, commands, idle, rfl⟩
  | cons a samples ih =>
    obtain ⟨u, first, turns', idle', commands', supplied', cfg, histogram⟩ : ∃ u, step s = .next u ∧
        u.sched = List.replicate samples.length .host ++ rest ∧ u.hphase = .idle ∧
        u.cmds = List.replicate samples.length (0x31000000#32, 0#32) ++ l ∧ u.adc = samples ++ later ∧ u.cfg = s.cfg ∧
        u.histogram 0 = (s.histogram 0).recorded (classify s.cfg a.toInt) :=
      ⟨_, step_record turns idle commands valid supplied, rfl, idle, rfl, rfl, rfl, State.histogram_setHistogram_self _ _ _⟩
    have valid' : (u.histogram 0).valid = true := by rw [histogram, Histogram.recorded_valid, valid]
    obtain ⟨t, run, turns'', commands'', idle'', histogram'⟩ := ih turns' idle' commands' supplied' valid'
    rw [histogram, cfg] at histogram'
    exact ⟨t, ⟨u, first, run⟩, turns'', commands'', idle'', histogram'⟩

/-- Recording changes no validity, however many samples. -/
@[simp] theorem Histogram.recordedAll_valid (p : Parameters) (x : Histogram) (samples : List Word) :
    (x.recordedAll p samples).valid = x.valid := by
  induction samples generalizing x with
  | nil => rfl
  | cons a samples ih => exact (ih _).trans (Histogram.recorded_valid _ _)

/-- Samples that all fail to classify are all dropped (R144). -/
theorem Histogram.recordedAll_of_none {p : Parameters} {samples : List Word} (fail : ∀ a ∈ samples, classify p a.toInt = none)
    (x : Histogram) : x.recordedAll p samples = x := by
  induction samples generalizing x with
  | nil => rfl
  | cons a samples ih =>
    obtain ⟨first, later⟩ := List.forall_mem_cons.mp fail
    rw [Histogram.recordedAll, List.foldl_cons, first]
    exact ih later x

/-- HNEW, one RECORD for each sample supplied, and MODE: what is left and what MODE answers (R149). -/
theorem runs_denoiser (samples : List Word) {later : List Word} (turns : s.sched = List.replicate (samples.length + 2) .host)
    (idle : s.hphase = .idle)
    (commands : s.cmds = (0x30000000#32, 0#32) :: (List.replicate samples.length (0x31000000#32, 0#32) ++ [(0x32000000#32, 0#32)]))
    (supplied : s.adc = samples ++ later) {x : Histogram} (recorded : Histogram.fresh.recordedAll s.cfg samples = x) :
    ∃ t, Runs (samples.length + 2) s t ∧ t.histogram 0 = x ∧
      t.rsps.head? = some ⟨(modeAnswer x.mode).1, .r32 (modeAnswer x.mode).2⟩ := by
  obtain ⟨u, first, turns', idle', commands', supplied', cfg, histogram⟩ : ∃ u, step s = .next u ∧
      u.sched = List.replicate (samples.length + 1) .host ∧ u.hphase = .idle ∧
      u.cmds = List.replicate samples.length (0x31000000#32, 0#32) ++ [(0x32000000#32, 0#32)] ∧ u.adc = samples ++ later ∧
      u.cfg = s.cfg ∧ u.histogram 0 = Histogram.fresh :=
    ⟨_, step_hnew turns idle commands, rfl, idle, rfl, supplied, rfl, State.histogram_setHistogram_self _ _ _⟩
  rw [List.replicate_succ'] at turns'
  obtain ⟨v, run, turn, command, idle'', histogram'⟩ := runs_records samples turns' idle' commands' supplied' (by rw [histogram]; rfl)
  rw [histogram, cfg, recorded] at histogram'
  have valid : (v.histogram 0).valid = true := by
    rw [histogram', ← recorded, Histogram.recordedAll_valid]
    rfl
  exact ⟨_, ⟨u, first, runs_trans run (runs_one (step_mode turn idle'' command valid rfl))⟩, histogram', histogram' ▸ rfl⟩

/-- The buckets of the scenario's first half (R149). -/
theorem recordedAll_zero_zero_one_zero {p : Parameters} {a b c d : Word} (first : classify p a.toInt = some 0)
    (second : classify p b.toInt = some 0) (third : classify p c.toInt = some 1) (fourth : classify p d.toInt = some 0) :
    Histogram.fresh.recordedAll p [a, b, c, d] =
      ⟨#v[3#32, 1#32, 0#32, 0#32, 0#32, 0#32, 0#32, 0#32, 0#32, 0#32, 0#32, 0#32, 0#32, 0#32, 0#32, 0#32], true⟩ := by
  simp only [Histogram.recordedAll, List.foldl_cons, List.foldl_nil, first, second, third, fourth]
  decide

/-- Settles O42: the buckets after the samples, and MODE of them. -/
theorem majorityVoteScenario : Obligations.MajorityVoteScenario := by
  constructor
  · intro s a b c d later supplied first second third fourth idle turns commands
    obtain ⟨t, run, histogram, answer⟩ := runs_denoiser [a, b, c, d] turns idle commands supplied
      (recordedAll_zero_zero_one_zero first second third fourth)
    exact ⟨t, run, congrArg Histogram.buckets histogram, answer⟩
  · intro s samples supplied fail idle turns commands
    obtain ⟨t, run, -, answer⟩ := runs_denoiser samples (later := []) turns idle commands (by rw [supplied, List.append_nil])
      (Histogram.recordedAll_of_none fail _)
    have nothing : Histogram.fresh.mode = idxFail.toNat := Histogram.mode_of_all_zero fun k => Vector.getElem_replicate _
    rw [nothing, modeAnswer_idxFail] at answer
    exact ⟨t, run, answer⟩

end Sys2Proof.Machine
end

section
/-! SUPPORT and settlement. Unit FD: RXBYTE, the bound of POLL, the layout of a good frame, the checksum law, corruption of one byte, and garbage
before a frame (R160 to R169). -/

namespace Sys2Proof.Machine

open Config

variable {s t : State} {rest : List Turn} {b1 : Byte} {f : Vector Half 14}

/-- Settles O43. -/
theorem rxbyteAppendsItsByte : Obligations.RxbyteAppendsItsByte :=
  fun _ _ => rfl

/-- Past its third step POLL answers OK or INTEGRITY and nothing else (R162). -/
theorem acceptFrame_cases (b : List Byte) (s : State) :
    ∃ r, acceptFrame b s = .next (s.push r) ∧ (r.status = .ok ∨ r.status = .integrity) := by
  by_cases right : frameSum b = frameField b 14
  · exact ⟨_, acceptFrame_of_eq right, .inl rfl⟩
  · exact ⟨_, acceptFrame_of_ne right, .inr rfl⟩

/-- Step 2 of POLL: one byte is consumed (R162). -/
theorem execPoll_consumes_garbage {x : Byte} {later : List Byte} (queue : s.rxq = x :: later) (garbage : x ≠ sentinel) :
    execPoll s = .next ((s.rxConsume 1).push ⟨.notReady, .r32 0#32⟩) := by
  obtain ⟨-, -, consumed⟩ := State.rxPrimitives_of_cons queue
  rw [execPoll_of_garbage queue garbage, consumed]

/-- Settles O45, by the head and the length of the queue. -/
theorem pollIsBounded : Obligations.PollIsBounded := by
  intro s
  rw [exec_poll]
  by_cases empty : s.rxq = []
  · exact ⟨0, ⟨.notReady, .r32 0#32⟩, .inl rfl, Nat.zero_le _, execPoll_of_empty empty, by simp, by simp⟩
  obtain ⟨x, later, queue⟩ := List.exists_cons_of_ne_nil empty
  by_cases head : x = sentinel
  · subst head
    by_cases short : s.rxq.length < frameLen
    · exact ⟨0, ⟨.notReady, .r32 0#32⟩, .inl rfl, Nat.zero_le _, execPoll_of_short queue short, by simp, by simp⟩
    · have enough : 32 ≤ s.rxq.length := Nat.not_lt.mp short
      have head : (s.rxq.take 32).head? = some sentinel := by rw [queue]; rfl
      obtain ⟨r, answer, status⟩ := acceptFrame_cases (s.rxq.take 32) (s.setRxq (s.rxq.drop 32))
      have run := (execPoll_of_frame (List.take_append_drop 32 s.rxq).symm (List.length_take_of_le enough) head).trans answer
      have ready : r.status ≠ .notReady := by
        rcases status with ok | integrity
        · simp [ok]
        · simp [integrity]
      exact ⟨32, r, .inr (.inr rfl), enough, run, iff_of_true rfl status, iff_of_false (fun differs => differs rfl) ready⟩
  · exact ⟨1, ⟨.notReady, .r32 0#32⟩, .inr (.inl rfl), List.length_pos_iff.mpr empty, execPoll_consumes_garbage queue head,
      by simp, by simp⟩

/-! ### The good frame -/

/-- The checksum field of a good frame (R163). -/
def frameChecksum (b1 : Byte) (f : Vector Half 14) : Half := BitVec.ofNat 16 (byteSum (frameBody b1 f))

/-- A good frame is its two leading bytes and fifteen fields (R163). -/
theorem goodFrame_eq (b1 : Byte) (f : Vector Half 14) :
    goodFrame b1 f = sentinel :: b1 :: (f.push (frameChecksum b1 f)).toList.flatMap fieldBytes := by
  rw [Vector.toList_push, List.flatMap_append, List.flatMap_singleton]
  rfl

theorem goodFrame_length (b1 : Byte) (f : Vector Half 14) : (goodFrame b1 f).length = frameLen := by
  rw [goodFrame, List.length_append, frameBody_length]
  rfl

/-- Field `j` of a good frame reads back as written (R168). -/
theorem frameField_goodFrame (b1 : Byte) (f : Vector Half 14) (j : Fin nFields) :
    frameField (goodFrame b1 f) j = (f.push (frameChecksum b1 f))[j] := by
  obtain ⟨hi, lo⟩ := flatMap_fieldBytes_getD (f.push (frameChecksum b1 f)).toList j.val (by simp) []
  rw [List.append_nil] at hi lo
  have hi_place : 2 + 2 * j.val = 2 * j.val + 1 + 1 := by omega
  have lo_place : 3 + 2 * j.val = 2 * j.val + 1 + 1 + 1 := by omega
  rw [frameField, goodFrame_eq, hi_place, lo_place, List.getD_cons_succ, List.getD_cons_succ, List.getD_cons_succ,
    List.getD_cons_succ, hi, lo, bigEndian_fieldBytes]
  exact Vector.getElem_toList _

/-- The fields of a good frame read back as written, the checksum as the fifteenth (R168). -/
theorem frameFields_goodFrame (b1 : Byte) (f : Vector Half 14) :
    frameFields (goodFrame b1 f) = f.push (frameChecksum b1 f) := by
  ext j hj
  rw [frameFields, Vector.getElem_ofFn, frameField_goodFrame]
  rfl

/-- The checksum of a good frame is the one it carries (R163, R168). -/
theorem frameSum_goodFrame (b1 : Byte) (f : Vector Half 14) :
    frameSum (goodFrame b1 f) = frameField (goodFrame b1 f) 14 := by
  have body : (goodFrame b1 f).take sumLen = frameBody b1 f := List.take_left' (frameBody_length b1 f)
  have carried : (f.push (frameChecksum b1 f))[(14 : Fin nFields)] = frameChecksum b1 f := Vector.getElem_push_eq ..
  apply BitVec.eq_of_toNat_eq
  rw [frameField_goodFrame, carried, frameSum, body, sum16_toNat, frameChecksum, BitVec.toNat_ofNat]

/-- Settles O47: a good frame passes the checksum test and its fields read back. -/
theorem frameRoundTrip : Obligations.FrameRoundTrip := by
  intro s b1 f later queue
  rw [exec_poll, execPoll_of_frame queue (goodFrame_length b1 f) rfl, acceptFrame_of_eq (frameSum_goodFrame b1 f),
    frameFields_goodFrame]
  rfl

/-! ### Garbage before a frame -/

/-- POLL on the host's turn outside INIT (R161). -/
theorem step_poll {arg : Word} {l : List (Word × Word)} (turn : s.sched = .host :: rest) (idle : s.hphase = .idle)
    (command : s.cmds = (0x40000000#32, arg) :: l) : step s = exec .poll ((s.setSched rest).setCmds l) :=
  step_command turn idle command rfl

/-- Settles O46, by the number of garbage bytes: each POLL consumes one, and the one that finds the frame answers it. -/
theorem garbageIsPassedOneBytePerPoll : Obligations.GarbageIsPassedOneBytePerPoll := by
  intro s garbage b1 f later queue not_sentinel idle turns commands
  induction garbage generalizing s with
  | nil =>
    have answer := frameRoundTrip ((s.setSched []).setCmds []) b1 f later queue
    exact ⟨_, runs_one ((step_poll turns idle commands).trans answer), rfl, rfl⟩
  | cons x garbage ih =>
    obtain ⟨head, others⟩ := List.forall_mem_cons.mp not_sentinel
    obtain ⟨u, passed, queue', idle', turns', commands', answers⟩ : ∃ u, step s = .next u ∧
        u.rxq = garbage ++ goodFrame b1 f ++ later ∧ u.hphase = .idle ∧ u.sched = List.replicate (garbage.length + 1) .host ∧
        u.cmds = List.replicate (garbage.length + 1) (0x40000000#32, 0#32) ∧ u.rsps = ⟨.notReady, .r32 0#32⟩ :: s.rsps :=
      ⟨_, (step_poll turns idle commands).trans (execPoll_of_garbage (s := (s.setSched _).setCmds _) queue head),
        rfl, idle, rfl, rfl, rfl⟩
    obtain ⟨t, run, left, answers'⟩ := ih u queue' others idle' turns' commands'
    refine ⟨t, ⟨u, passed, run⟩, left, answers'.trans ?_⟩
    rw [answers, List.length_cons, List.replicate_succ', List.append_assoc, List.singleton_append]

/-! ### The checksum law -/

/-- The sum of thirty bytes does not reach the modulus of the accumulator (R167). -/
theorem byteSum_take_le (b : List Byte) : byteSum (b.take 30) ≤ 7650 := by
  have bound := byteSum_le (b.take 30)
  have : (b.take 30).length ≤ 30 := List.length_take_le 30 b
  omega

/-- Settles O48: on thirty bytes the modulus changes nothing, so POLL's test is the plain sum's. -/
theorem checksumIsThePlainSum : Obligations.ChecksumIsThePlainSum := by
  refine ⟨?_, ?_, ?_⟩
  · intro b thirty
    have bound := byteSum_le b
    rw [sum16_toNat]
    omega
  · intro s t b later queue head h
    obtain ⟨-, -, -, frame⟩ := pollTakesItsFiveSteps s
    obtain ⟨wrong, right⟩ := frame b later queue head
    have bound := byteSum_take_le b.toList
    rw [Nat.mod_eq_of_lt (by omega)] at wrong right
    by_cases sum : byteSum (b.toList.take 30) = b[30].toNat * 256 + b[31].toNat
    · rw [right sum] at h
      cases h
      exact iff_of_true ⟨_, rfl⟩ sum
    · rw [wrong sum] at h
      cases h
      exact iff_of_false (fun ⟨_, answer⟩ => nomatch answer) sum
  · intro s t b later queue head above h
    obtain ⟨-, -, -, frame⟩ := pollTakesItsFiveSteps s
    obtain ⟨wrong, -⟩ := frame b later queue head
    have bound := byteSum_take_le b.toList
    have above : 29 < b[30].toNat := above
    rw [wrong (by omega)] at h
    cases h
    rfl

/-! ### Corruption of one byte -/

/-- A flipped bit changes its byte. -/
theorem flipped_ne (x : Byte) (bit : Fin 8) : x ^^^ (1#8 <<< bit.val) ≠ x := by
  intro same
  have mask : 1#8 <<< bit.val = 0#8 := by
    have := congrArg (x ^^^ ·) same
    simpa [← BitVec.xor_assoc] using this
  exact (by decide : ∀ bit : Fin 8, 1#8 <<< bit.val ≠ 0#8) bit mask

/-- The first thirty bytes after one byte of the frame is replaced. -/
theorem take_toList_set (b : Vector Byte 32) (n : Fin 32) (y : Byte) :
    (b.set n y).toList.take 30 = (b.toList.take 30).set n.val y := by
  rw [Vector.toList_set, List.take_set]

/-- One byte of a frame changed leaves the checksum wrong: the sum changes and not the field, or the field and not the sum (R167, R169). -/
theorem checksum_of_set {b : Vector Byte 32} (right : byteSum (b.toList.take 30) % 65536 = b[30].toNat * 256 + b[31].toNat)
    (n : Fin 32) {y : Byte} (changed : y ≠ b[n]) :
    byteSum ((b.set n y).toList.take 30) % 65536 ≠ (b.set n y)[30].toNat * 256 + (b.set n y)[31].toNat := by
  have changed : y.toNat ≠ b[n.val].toNat := fun same => changed (BitVec.eq_of_toNat_eq same)
  have bound := byteSum_take_le b.toList
  have bound' := byteSum_take_le (b.set n y).toList
  rw [Vector.getElem_set, Vector.getElem_set]
  by_cases summed : n.val < 30
  · have sum := byteSum_set (b.toList.take 30) n.val (by simpa using summed) y
    rw [← take_toList_set, List.getElem_take, Vector.getElem_toList] at sum
    rw [if_neg (by omega), if_neg (by omega)]
    omega
  · rw [take_toList_set, List.set_eq_of_length_le (by simpa using summed)]
    obtain last | last : n.val = 30 ∨ n.val = 31 := by omega
    · rw [if_pos last, if_neg (by omega)]
      simp only [last] at changed
      omega
    · rw [if_neg (by omega), if_pos last]
      simp only [last] at changed
      omega

/-- A good frame as thirty-two bytes: the sentinel in front, and a checksum that is right (R163). -/
theorem goodFrame_bytes (b1 : Byte) (f : Vector Half 14) :
    ∃ b : Vector Byte 32, b.toList = goodFrame b1 f ∧ b[0] = sentinel ∧
      byteSum (b.toList.take 30) % 65536 = b[30].toNat * 256 + b[31].toNat := by
  obtain ⟨b, bytes⟩ : ∃ b : Vector Byte 32, b.toList = goodFrame b1 f :=
    ⟨⟨(goodFrame b1 f).toArray, goodFrame_length b1 f⟩, rfl⟩
  refine ⟨b, bytes, ?_, (frameSum_eq_iff b).mp ?_⟩
  · rw [← frameByte_getD b (by decide), bytes]
    rfl
  · rw [bytes]
    exact frameSum_goodFrame b1 f

/-- Flipping a bit of a frame replaces one byte by another. -/
theorem flipBit_toList (b : Vector Byte 32) (n : Fin 32) (bit : Fin 8) :
    flipBit b.toList n.val bit = (b.set n (b[n] ^^^ (1#8 <<< bit.val))).toList := by
  rw [flipBit, frameByte_getD b n.isLt, Vector.toList_set]
  rfl

/-- Settles O49: behind byte 0 the flip leaves the sentinel and makes the checksum wrong; in byte 0 it makes the head garbage. -/
theorem singleBitCorruptionIsNeverARecord : Obligations.SingleBitCorruptionIsNeverARecord := by
  intro s b1 f later n bit queue
  constructor
  · intro behind
    obtain ⟨b, bytes, head, right⟩ := goodFrame_bytes b1 f
    rw [← bytes, flipBit_toList] at queue
    obtain ⟨-, -, -, frame⟩ := pollTakesItsFiveSteps s
    have head' : (b.set n (b[n] ^^^ (1#8 <<< bit.val)))[0] = 0x42#8 := by
      rw [Vector.getElem_set, if_neg (fun first : n.val = 0 => behind (Fin.ext first)), head]
      rfl
    obtain ⟨wrong, -⟩ := frame _ later queue head'
    exact wrong (checksum_of_set right n (flipped_ne b[n] bit))
  · rintro rfl
    rw [goodFrame_eq] at queue
    exact execPoll_consumes_garbage queue (flipped_ne sentinel bit)

end Sys2Proof.Machine
end
